-- ==== Sys2Proof/Word.lean ====
section
/-! DEFINITION. The two word types of the LS-8 core: the 8-bit byte (registers, cells, operands, flags)
and the 16-bit program-counter word (00_scope.md R4 and section 5). -/

namespace Sys2Proof

/-- An unsigned 8-bit value: a memory cell, a register, an operand byte, the flag register. -/
abbrev Byte := BitVec 8

/-- The width of the program counter (R4, R14; 92 D1, log 2). -/
abbrev Word := BitVec 16

end Sys2Proof
end

