-- ==== Sys2Proof/Syntax.lean ====
section
/-! DEFINITION. The instruction set as syntax: one constructor per row of spec/opcode_table.json
(30_encoding.md R54). A register operand is the whole operand byte (R53). -/

namespace Sys2Proof

/-- The sixteen rows of the opcode map (R54). `a` is the byte at `pc+1`, `b` the byte at `pc+2`.
`id` is the field `ID`, bits 5:0 of the opcode byte (R51), kept for the no-operations because a row
covers many opcode values. The operand bytes the spec calls ignored are kept as well, so that an
instruction says every byte the engine fetches for it; the byte at `pc+3` of NOP4 is never fetched
(R106) and is no part of the syntax (log 15). -/
inductive Instr where
  | hlt
  | ldi (a b : Byte)
  | prn (a : Byte)
  | mul (a b : Byte)
  | add (a b : Byte)
  | push (a : Byte)
  | pop (a : Byte)
  | call (a : Byte)
  | ret
  | rsv54 (a : Byte)
  | rsv55 (a : Byte)
  | rsv56 (a : Byte)
  | nop1 (id : BitVec 6)
  | nop2 (id : BitVec 6) (a : Byte)
  | nop3 (id : BitVec 6) (a b : Byte)
  | nop4 (id : BitVec 6) (a b : Byte)
deriving DecidableEq, Repr

/-- The row names, for statements about the opcode map (R54; RSV54 to NOP4 are the spec's own names, D14). -/
inductive Mnemonic where
  | hlt | ldi | prn | mul | add | push | pop | call | ret
  | rsv54 | rsv55 | rsv56 | nop1 | nop2 | nop3 | nop4
deriving DecidableEq, Repr

end Sys2Proof
end

