-- ==== Sys2Proof/WellFormed.lean ====
section
/-! DEFINITION. Which terms of `Instr` stand for an encoding: a no-operation's `id` must not be that of a
listed opcode of the same top bits (30_encoding.md R54; 45_reserved_unlisted.md R103 to R106). Every
operand byte is admitted: a register operand above 7 is a legal encoding that faults when it runs (R53, R112). -/

namespace Sys2Proof

/-- The `ID` fields of the listed opcodes with top bits `00`: HLT, RET (R103). -/
def listedIds00 : List (BitVec 6) := [0x01#6, 0x11#6]

/-- The `ID` fields of the listed opcodes with top bits `01`: PUSH, POP, PRN, CALL and the three reserved (R104). -/
def listedIds01 : List (BitVec 6) := [0x05#6, 0x06#6, 0x07#6, 0x10#6, 0x14#6, 0x15#6, 0x16#6]

/-- The `ID` fields of the listed opcodes with top bits `10`: LDI, ADD, MUL (R105). -/
def listedIds10 : List (BitVec 6) := [0x02#6, 0x20#6, 0x22#6]

/-- The check. NOP4 has no exclusion: no listed opcode has top bits `11` (R106). -/
def Instr.wellFormed : Instr → Bool
  | .hlt | .ret => true
  | .ldi _ _ | .mul _ _ | .add _ _ => true
  | .prn _ | .push _ | .pop _ | .call _ => true
  | .rsv54 _ | .rsv55 _ | .rsv56 _ => true
  | .nop1 id => !listedIds00.contains id
  | .nop2 id _ => !listedIds01.contains id
  | .nop3 id _ _ => !listedIds10.contains id
  | .nop4 _ _ _ => true

end Sys2Proof
end

