-- ==== Sys2Proof/Decode.lean ====
section
/-! DEFINITION. The opcode values, the decoder (30_encoding.md R54, R57), the encoder and the opcode map as
rows (opcode_table.json). Selection is by the whole opcode byte; operand bytes never take part. -/

namespace Sys2Proof

namespace Opcode

/-- `0x01`, format Z (R70). -/
abbrev hlt : Byte := 0b00000001#8
/-- `0x82`, format RI (R75). -/
abbrev ldi : Byte := 0b10000010#8
/-- `0x47`, format R (R76). -/
abbrev prn : Byte := 0b01000111#8
/-- `0xA2`, format RR (R80). -/
abbrev mul : Byte := 0b10100010#8
/-- `0xA0`, format RR (R81). -/
abbrev add : Byte := 0b10100000#8
/-- `0x45`, format R (R90). -/
abbrev push : Byte := 0b01000101#8
/-- `0x46`, format R (R91). -/
abbrev pop : Byte := 0b01000110#8
/-- `0x50`, format R (R95). -/
abbrev call : Byte := 0b01010000#8
/-- `0x11`, format Z (R96). -/
abbrev ret : Byte := 0b00010001#8
/-- `0x54`, reserved (R100). -/
abbrev rsv54 : Byte := 0b01010100#8
/-- `0x55`, reserved (R101). -/
abbrev rsv55 : Byte := 0b01010101#8
/-- `0x56`, reserved (R102). -/
abbrev rsv56 : Byte := 0b01010110#8

/-- An opcode byte from its fields: `N` in bits 7:6, `ID` in bits 5:0 (R51). -/
def fromFields (n : BitVec 2) (id : BitVec 6) : Byte := n ++ id

/-- The field `N`, bits 7:6 (R51). -/
def countField (ir : Byte) : BitVec 2 := ir.extractLsb' 6 2

/-- The field `ID`, bits 5:0 (R51). -/
def idField (ir : Byte) : BitVec 6 := ir.extractLsb' 0 6

end Opcode

/-- The default arm: none of the twelve listed values (R56, R57). The length class is the top two bits. -/
def decodeUnlisted (ir a b : Byte) : Instr :=
  if Opcode.countField ir = 0b00#2 then .nop1 (Opcode.idField ir)
  else if Opcode.countField ir = 0b01#2 then .nop2 (Opcode.idField ir) a
  else if Opcode.countField ir = 0b10#2 then .nop3 (Opcode.idField ir) a b
  else .nop4 (Opcode.idField ir) a b

/-- The decoder of the engine: total, from the three bytes each cycle fetches (R19 step 1, R54, R57). -/
def decode (ir a b : Byte) : Instr :=
  if ir = Opcode.hlt then .hlt
  else if ir = Opcode.ldi then .ldi a b
  else if ir = Opcode.prn then .prn a
  else if ir = Opcode.mul then .mul a b
  else if ir = Opcode.add then .add a b
  else if ir = Opcode.push then .push a
  else if ir = Opcode.pop then .pop a
  else if ir = Opcode.call then .call a
  else if ir = Opcode.ret then .ret
  else if ir = Opcode.rsv54 then .rsv54 a
  else if ir = Opcode.rsv55 then .rsv55 a
  else if ir = Opcode.rsv56 then .rsv56 a
  else decodeUnlisted ir a b

/-- Why a list of bytes is not decoded. No opcode value is refused (R57). -/
inductive DecodeError where
  /-- Fewer than the three bytes every cycle fetches (R19 step 1, R53). -/
  | truncated
deriving DecidableEq, Repr

/-- The decoder on a byte string: its first three bytes are what the engine fetches, whatever the length
of the instruction. -/
def decodeBytes : List Byte → Except DecodeError Instr
  | ir :: a :: b :: _ => .ok (decode ir a b)
  | _ => .error .truncated

/-- The opcode byte of an instruction (R54). -/
def Instr.opcode : Instr → Byte
  | .hlt => Opcode.hlt
  | .ldi _ _ => Opcode.ldi
  | .prn _ => Opcode.prn
  | .mul _ _ => Opcode.mul
  | .add _ _ => Opcode.add
  | .push _ => Opcode.push
  | .pop _ => Opcode.pop
  | .call _ => Opcode.call
  | .ret => Opcode.ret
  | .rsv54 _ => Opcode.rsv54
  | .rsv55 _ => Opcode.rsv55
  | .rsv56 _ => Opcode.rsv56
  | .nop1 id => Opcode.fromFields 0b00#2 id
  | .nop2 id _ => Opcode.fromFields 0b01#2 id
  | .nop3 id _ _ => Opcode.fromFields 0b10#2 id
  | .nop4 id _ _ => Opcode.fromFields 0b11#2 id

/-- The operand bytes of an instruction, at increasing addresses after the opcode (R52). NOP4's third
operand byte is skipped unread, so any value would do; the encoder writes 0 (DESIGN CHOICE, safe, log 15). -/
def Instr.operandBytes : Instr → List Byte
  | .hlt | .ret | .nop1 _ => []
  | .prn a | .push a | .pop a | .call a => [a]
  | .rsv54 a | .rsv55 a | .rsv56 a | .nop2 _ a => [a]
  | .ldi a b | .mul a b | .add a b | .nop3 _ a b => [a, b]
  | .nop4 _ a b => [a, b, 0#8]

/-- The bytes of an instruction (R50, R52). -/
def encode (i : Instr) : List Byte := i.opcode :: i.operandBytes

/-- The row an instruction belongs to (R54). -/
def Instr.mnemonic : Instr → Mnemonic
  | .hlt => .hlt
  | .ldi _ _ => .ldi
  | .prn _ => .prn
  | .mul _ _ => .mul
  | .add _ _ => .add
  | .push _ => .push
  | .pop _ => .pop
  | .call _ => .call
  | .ret => .ret
  | .rsv54 _ => .rsv54
  | .rsv55 _ => .rsv55
  | .rsv56 _ => .rsv56
  | .nop1 _ => .nop1
  | .nop2 _ _ => .nop2
  | .nop3 _ _ _ => .nop3
  | .nop4 _ _ _ => .nop4

/-- One row of opcode_table.json: an opcode value `op` selects it when `op & mask = pattern` and `op` is not
one of the values `excludes` takes out of a fallback row. -/
structure OpcodeRow where
  mnemonic : Mnemonic
  pattern  : Byte
  mask     : Byte
  excludes : List Byte
deriving DecidableEq, Repr

def OpcodeRow.selects (r : OpcodeRow) (ir : Byte) : Bool :=
  (ir &&& r.mask == r.pattern) && !r.excludes.contains ir

/-- The twelve exact rows (mask `0xFF`). -/
def exactRows : List OpcodeRow :=
  [⟨.hlt, 0x01#8, 0xFF#8, []⟩, ⟨.ldi, 0x82#8, 0xFF#8, []⟩, ⟨.prn, 0x47#8, 0xFF#8, []⟩,
   ⟨.mul, 0xA2#8, 0xFF#8, []⟩, ⟨.add, 0xA0#8, 0xFF#8, []⟩, ⟨.push, 0x45#8, 0xFF#8, []⟩,
   ⟨.pop, 0x46#8, 0xFF#8, []⟩, ⟨.call, 0x50#8, 0xFF#8, []⟩, ⟨.ret, 0x11#8, 0xFF#8, []⟩,
   ⟨.rsv54, 0x54#8, 0xFF#8, []⟩, ⟨.rsv55, 0x55#8, 0xFF#8, []⟩, ⟨.rsv56, 0x56#8, 0xFF#8, []⟩]

/-- The four fallback rows (mask `0xC0`) with the values each excludes. -/
def fallbackRows : List OpcodeRow :=
  [⟨.nop1, 0x00#8, 0xC0#8, [0x01#8, 0x11#8]⟩,
   ⟨.nop2, 0x40#8, 0xC0#8, [0x45#8, 0x46#8, 0x47#8, 0x50#8, 0x54#8, 0x55#8, 0x56#8]⟩,
   ⟨.nop3, 0x80#8, 0xC0#8, [0x82#8, 0xA0#8, 0xA2#8]⟩,
   ⟨.nop4, 0xC0#8, 0xC0#8, []⟩]

/-- The opcode map (R54). -/
def opcodeTable : List OpcodeRow := exactRows ++ fallbackRows

/-- The longest instruction, in bytes (R50, R106). -/
def maxInstrBytes : Nat := 4

/-- Byte `k` of an instruction given as a number, as opcode_table.json numbers its bits: bit 0 is the least
significant bit of the first byte. Bits from `nbits` up are 0. -/
def tableByte (nbits w k : Nat) : Byte := BitVec.ofNat 8 (w % 2 ^ nbits / 256 ^ k)

/-- The bytes of such a number at increasing addresses, up to the longest instruction. -/
def tableBytes (nbits w : Nat) : List Byte := (List.range maxInstrBytes).map (tableByte nbits w)

/-- What the decoder reads from an instruction given as a number of the opcode table. -/
def decodeTableWord (nbits w : Nat) : Option Instr :=
  match decodeBytes (tableBytes nbits w) with
  | .ok i => some i
  | .error _ => none

end Sys2Proof
end

