-- ==== Sys2Proof/Config.lean ====
section
/-! DEFINITION. The implementation parameters of 00_scope.md R4. Each is a constant of the spec; none is
left open, so there is no free value here. -/

namespace Sys2Proof.Config

/-- `MEM_SIZE`: addresses run from 0 to 255 (R4, R10). -/
abbrev memSize : Nat := 256

/-- `NREGS`: the number of general registers (R4, R11). -/
abbrev numRegs : Nat := 8

/-- `SP`: the register that PUSH, POP, CALL and RET use as the stack pointer (R4, R12). -/
abbrev spIndex : Fin numRegs := 7

/-- `SP_RESET`: the reset value of register 7 (R4, R26). -/
abbrev spReset : Byte := 0xF4#8

/-- The address of the first fetch (R26, R35). -/
abbrev entryPoint : Word := 0#16

/-- What a cell holds before anything is written to it (R10, R26). -/
abbrev cellReset : Byte := 0#8

/-- The largest stack pointer, at which an increment has no 8-bit result (R113). -/
abbrev spMax : Byte := 0xFF#8

end Sys2Proof.Config
end

