-- ==== Sys2Proof/Machine/State.lean ====
section
/-! DEFINITION. The state of the LS-8 core, the tuple `(M, x, pc, FL, run, out)` of 10_state.md, its reset
value (R26), and the reasons a step can stop. Plain data throughout. -/

namespace Sys2Proof.Machine

/-- The memory array `M` (R10): the cells that do not hold the reset value 0, at strictly rising addresses
below 256. `Memory.wf` is that form. -/
abbrev Memory := List Host.Cell

/-- The two normal ends of a run (R7, R18). -/
inductive HaltReason where
  /-- HLT was executed (R70). -/
  | hltOpcode
  /-- A cycle began with `pc >= 256` (R21). -/
  | endOfMemory
deriving DecidableEq, Repr

/-- The four causes of a fault with the offending value, the spec's `info` (R110). -/
inductive FaultCause where
  /-- A memory access outside 0 to 255 (R111). -/
  | memRangeFault (addr : Nat)
  /-- A register read or write with an index above 7 (R112). -/
  | regIndexFault (index : Byte)
  /-- POP or RET with `x[7] = 0xFF` (R113; 92 D3, log 4). -/
  | spIncrementOverflow (sp : Byte)
  /-- The ALU helper with a select value that is neither ADD nor CMP (R114); the value is a label (log 14). -/
  | aluUnsupportedOp (select : Nat)
deriving DecidableEq, Repr

/-- The run state of the Execution Engine (R18; 92 D8, log 9). -/
inductive RunState where
  | running
  | halted (reason : HaltReason)
  | faulted (cause : FaultCause)
deriving DecidableEq, Repr

/-- All the state there is (R27). The latches of one cycle are not state (R22, log 13). -/
structure State where
  /-- `M`, R10. -/
  mem : Memory
  /-- `x[0]` to `x[7]`, R11. -/
  x   : Vector Byte 8
  /-- The program counter, R14. -/
  pc  : Word
  /-- The flag register: bit 0 E, bit 1 G, bit 2 L, R16. -/
  fl  : Byte
  /-- The run state, R18. -/
  run : RunState
  /-- The output stream, oldest value first, R23. -/
  out : List Byte
deriving DecidableEq, Repr

/-- Why `step`, or a direct invocation of the ALU helper, answers no next state: the machine is already in a terminal run state and no transition
leaves it (R18). Entering that state is a next state, not one of these (DESIGN CHOICE, safe, log 1). -/
inductive Fault where
  /-- Raised by `step` and `aluInvoke` on a Halted machine. Safe: the hardware runs no cycle either (R18). -/
  | halted (reason : HaltReason)
  /-- Raised by `step` and `aluInvoke` on a Faulted machine. Safe: the hardware runs no cycle either (R18, R118). -/
  | faulted (cause : FaultCause)
deriving DecidableEq, Repr

/-- The refusals. Every instruction has its meaning, so none is answered. -/
inductive Refusal where
  /-- An instruction without a meaning yet; raised by no arm. Safe: it only stops. -/
  | notModelled (mnemonic : String)
deriving DecidableEq, Repr

/-- What a step or a meaning answers. -/
abbrev Result := Host.Outcome State Fault Refusal

/-- Machine construction (R26, R130): every value is the spec's. -/
def State.reset : State where
  mem := []
  x   := #v[0#8, 0#8, 0#8, 0#8, 0#8, 0#8, 0#8, Config.spReset]
  pc  := Config.entryPoint
  fl  := 0#8
  run := .running
  out := []

end Sys2Proof.Machine
end

