-- ==== Sys2Proof/Machine/Flags.lean ====
section
/-! DEFINITION. The only flag computation of the hardware: the comparator of the ALU helper (10_state.md R16,
42_alu_mul_add.md R85). No instruction drives it (R17, R83). -/

namespace Sys2Proof.Machine

/-- A truth value as the bit 1 or 0 of a byte. -/
def flagBit (c : Bool) : Byte := if c then 1#8 else 0#8

/-- `FL` after CMP: `(L << 2) | (G << 1) | E` of the two arguments themselves, bits 7:3 zero (R85; 92 D10, log 11). -/
def compareFlags (p q : Byte) : Byte :=
  (flagBit (p.toNat < q.toNat) <<< 2) ||| (flagBit (p.toNat > q.toNat) <<< 1) ||| flagBit (p == q)

end Sys2Proof.Machine
end

