-- ==== Sys2Proof/Machine/Operands.lean ====
section
/-! DEFINITION. The operand forms (30_encoding.md R53), the stack operand forms (20_memory.md R34, R37) and
the arithmetic laws (42_alu_mul_add.md R82). An immediate is its byte, unchanged, and needs no function. -/

namespace Sys2Proof.Machine

/-- A register operand: the whole byte is the index; 8 to 255 names no register and is not masked (R5, R53). -/
def regOperand (b : Byte) : Option (Fin Config.numRegs) :=
  if h : b.toNat < Config.numRegs then some ⟨b.toNat, h⟩ else none

/-- The stack-pointer decrement of PUSH and CALL, `(sp - 1) & 0xFF`: `0x00` becomes `0xFF` (R82; for CALL
92 D4, log 5). -/
def spDecrement (sp : Byte) : Byte := sp - 1#8

/-- The stack-pointer increment of POP and RET: none at `0xFF`, where it must not wrap (R37, R82; 92 D3, log 4). -/
def spIncrement (sp : Byte) : Option Byte :=
  if sp = Config.spMax then none else some (sp + 1#8)

/-- The exact sum, narrowed to its low 8 bits (R81, R82; 92 D2, log 3). -/
def addBytes (p q : Byte) : Byte := BitVec.ofNat 8 (p.toNat + q.toNat)

/-- The exact product, narrowed to its low 8 bits (R80, R82; 92 D2, log 3). -/
def mulBytes (p q : Byte) : Byte := BitVec.ofNat 8 (p.toNat * q.toNat)

/-- `zext_16` (00_scope.md section 5). -/
def zext16 (v : Byte) : Word := v.setWidth 16

/-- The byte CALL pushes, `(pc + 1)[7:0]` (R95). -/
def returnByte (pc : Word) : Byte := (pc + 1#16).setWidth 8

/-- The amount of the generic advancement, `(ir >> 6) + 1` (R20). -/
def advanceAmount (ir : Byte) : Word := zext16 (ir >>> 6) + 1#16

end Sys2Proof.Machine
end

