-- ==== Sys2Proof/Machine/Ops.lean ====
section
/-! DEFINITION. The named operations over memory, registers, output and run state: the primitives of
00_scope.md R5 to R7, raising a fault (60_exceptions.md R110, R117), the generic advancement (10_state.md R20)
and the fetch (R19). The primitives that may raise take the rest of the instruction as an argument, so that a
fault abandons exactly that rest and keeps every earlier write (R8, R117). -/

namespace Sys2Proof.Machine

/-! ## The memory array -/

/-- The content of a cell; an unlisted cell holds the reset value 0 (R10, R26). -/
def Memory.byteAt : Memory → Nat → Byte
  | [], _ => Config.cellReset
  | (k, w) :: m, a => if k = a then w else Memory.byteAt m a

/-- Put `v` in front of `m` at address `a`, unless it is what an unlisted cell holds. -/
def Memory.listed (a : Nat) (v : Byte) (m : Memory) : Memory :=
  if v = Config.cellReset then m else (a, v) :: m

/-- Store `v` in cell `a`, keeping the canonical form. -/
def Memory.put : Memory → Nat → Byte → Memory
  | [], a, v => Memory.listed a v []
  | (k, w) :: m, a, v =>
    if a < k then Memory.listed a v ((k, w) :: m)
    else if a = k then Memory.listed a v m
    else (k, w) :: Memory.put m a v

/-- The canonical form from address `lo` on: addresses rise strictly and lie below 256, no cell holds 0. -/
def Memory.wfFrom : Nat → Memory → Bool
  | _, [] => true
  | lo, (k, w) :: m =>
    decide (lo ≤ k) && decide (k < Config.memSize) && decide (w ≠ Config.cellReset) && Memory.wfFrom (k + 1) m

/-- The canonical form. -/
def Memory.wf (m : Memory) : Bool := Memory.wfFrom 0 m

/-- Store a list of bytes at increasing addresses, leaving out those beyond the array. -/
def Memory.putBytes : Memory → Nat → List Byte → Memory
  | m, _, [] => m
  | m, a, v :: vs =>
    Memory.putBytes (if a < Config.memSize then Memory.put m a v else m) (a + 1) vs

/-! ## Accessors and updates -/

/-- The content of register `i`. -/
def State.reg (s : State) (i : Fin Config.numRegs) : Byte := s.x[i.val]

/-- The stack pointer, register 7 (R12). -/
def State.sp (s : State) : Byte := s.reg Config.spIndex

/-- `x[i] <- v` for an index in range. No register is hardwired (R11). -/
def State.setReg (s : State) (i : Fin Config.numRegs) (v : Byte) : State :=
  { s with x := s.x.set i.val v }

/-- `x[7] <- v`. -/
def State.setSp (s : State) (v : Byte) : State := s.setReg Config.spIndex v

/-- `pc <- t` (R7). -/
def State.setPc (s : State) (t : Word) : State := { s with pc := t }

/-- `FL <- v`; only the ALU helper's CMP does so (R17). -/
def State.setFl (s : State) (v : Byte) : State := { s with fl := v }

/-- `run <- r` (R7). -/
def State.setRun (s : State) (r : RunState) : State := { s with run := r }

/-- `out <- out ++ [v]` (R7, R23). -/
def State.emit (s : State) (v : Byte) : State := { s with out := s.out ++ [v] }

/-- Store in a cell, for an address in range. -/
def State.setCell (s : State) (a : Nat) (v : Byte) : State := { s with mem := s.mem.put a v }

/-- `MemRead(a, 1)` as a value: none outside 0 to 255 (R6, R31). Addresses are natural numbers (log 18). -/
def State.loadByte (s : State) (a : Nat) : Option Byte :=
  if a < Config.memSize then some (s.mem.byteAt a) else none

/-! ## Ending a run -/

/-- TAKING A FAULT (R7, R110, R117). `run` becomes Faulted(cause, info); nothing is saved and control goes
nowhere; the advance is abandoned and earlier writes stay (92 D8, D15, log 9). There is no return from a
fault, so no operation undoes this one (R118). The entry is a next state (log 1). -/
def raise (c : FaultCause) (s : State) : Result := .next (s.setRun (.faulted c))

/-- `run <- Halted(reason)` (R7). -/
def State.halt (s : State) (r : HaltReason) : State := s.setRun (.halted r)

/-! ## The primitives that may raise -/

/-- The register read `x[b]` (R5). -/
def readReg (b : Byte) (s : State) (rest : Byte → Result) : Result :=
  match regOperand b with
  | some i => rest (s.reg i)
  | none => raise (.regIndexFault b) s

/-- The register write `x[b] <- v` (R5): the same index check, at the moment it is executed. -/
def writeReg (b v : Byte) (s : State) (rest : State → Result) : Result :=
  match regOperand b with
  | some i => rest (s.setReg i v)
  | none => raise (.regIndexFault b) s

/-- `MemRead(a, 1)` (R6). -/
def memRead (a : Nat) (s : State) (rest : Byte → Result) : Result :=
  match s.loadByte a with
  | some v => rest v
  | none => raise (.memRangeFault a) s

/-- `MemWrite(a, 1, v)` (R6): the same range check, then the store. -/
def memWrite (a : Nat) (v : Byte) (s : State) (rest : State → Result) : Result :=
  if a < Config.memSize then rest (s.setCell a v) else raise (.memRangeFault a) s

/-- `x[7] <- sp + 1` of POP and RET, with its fault at `0xFF` (R91, R96, R113). -/
def writeSpIncremented (sp : Byte) (s : State) (rest : State → Result) : Result :=
  match spIncrement sp with
  | some sp' => rest (s.setSp sp')
  | none => raise (.spIncrementOverflow sp) s

/-! ## The instruction cycle's own operations -/

/-- Generic advancement by the latched opcode (R19 step 3, R20; 92 D17, log 16). -/
def State.advance (ir : Byte) (s : State) : State := s.setPc (s.pc + advanceAmount ir)

/-- The end of an instruction's statements, with the advance. -/
def finish (ir : Byte) (s : State) : Result := .next (s.advance ir)

/-- The fetch (R19 step 1): the opcode and, unconditionally, the two bytes after it (92 D6, log 7). -/
def fetch (s : State) (rest : Byte → Byte → Byte → Result) : Result :=
  memRead s.pc.toNat s fun ir =>
  memRead (s.pc.toNat + 1) s fun a =>
  memRead (s.pc.toNat + 2) s fun b =>
  rest ir a b

/-- Soft termination (R19 step 0, R21; 92 D5, log 6): at `pc >= 256` only `run` changes. -/
def softTerminate (s : State) (rest : Result) : Result :=
  if Config.memSize ≤ s.pc.toNat then .next (s.halt .endOfMemory) else rest

/-- No cycle runs in a terminal run state (R18, log 1). -/
def whenRunning (s : State) (cycle : Result) : Result :=
  match s.run with
  | .running => cycle
  | .halted r => .fault (.halted r)
  | .faulted c => .fault (.faulted c)

/-- The last address at which an instruction can be fetched, 253 (R15, R31). -/
def lastFetchable : Nat := Config.memSize - 3

/-- The state with `bytes` stored where the next cycle fetches its instruction. Where no cycle would fetch
(a stopped machine, or a program counter above 253) the run state is Running and the program counter the
entry point, which is what the fetch needs (log 19). -/
def State.withFetchBytes (s : State) (bytes : List Byte) : State :=
  let at_ : Word := if s.pc.toNat ≤ lastFetchable then s.pc else Config.entryPoint
  { s with mem := s.mem.putBytes at_.toNat bytes, pc := at_, run := .running }

end Sys2Proof.Machine
end

