-- ==== Sys2Proof/Machine/Alu.lean ====
section
/-! DEFINITION. MUL and ADD (42_alu_mul_add.md R80, R81), which compute inline, and the ALU helper (R83 to R86),
which no instruction reaches. -/

namespace Sys2Proof.Machine

/-- `p <- x[a]; q <- x[b]; x[a] <- f p q`: the statements MUL, ADD and the helper's ADD share (R80, R81, R84). -/
def regRegOp (f : Byte → Byte → Byte) (a b : Byte) (s : State) (rest : State → Result) : Result :=
  readReg a s fun p =>
  readReg b s fun q =>
  writeReg a (f p q) s rest

/-- R80. -/
def execMul (a b : Byte) (s : State) : Result :=
  regRegOp mulBytes a b s fun s => finish Opcode.mul s

/-- R81. -/
def execAdd (a b : Byte) (s : State) : Result :=
  regRegOp addBytes a b s fun s => finish Opcode.add s

/-- The helper's operation select (R83). The source gives names and no encoding; any other value is a label
(DESIGN CHOICE, safe, log 14). -/
inductive AluSelect where
  | add
  | cmp
  | other (label : Nat)
deriving DecidableEq, Repr

/-- R84: identical in effect to ADD, with no advance. -/
def aluAdd (regA regB : Byte) (s : State) : Result :=
  regRegOp addBytes regA regB s fun s => .next s

/-- R85: compares the raw arguments, not the registers; writes nothing but `FL`; cannot raise. -/
def aluCmp (regA regB : Byte) (s : State) : Result :=
  .next (s.setFl (compareFlags regA regB))

/-- R86, R114. -/
def aluUnsupported (label : Nat) (s : State) : Result :=
  raise (.aluUnsupportedOp label) s

/-- What a direct invocation does while the machine runs (R83): the operation the select names. -/
def aluOperation (select : AluSelect) (regA regB : Byte) (s : State) : Result :=
  match select with
  | .add => aluAdd regA regB s
  | .cmp => aluCmp regA regB s
  | .other label => aluUnsupported label s

/-- One direct invocation of the ALU helper (R83). `step` never makes one (log 14). On a machine already Halted or
Faulted nothing happens: no transition leaves those states (R18) and the state remains as it was (R121), which the
model answers as it answers a step there (log 1; DEDUCED, unsafe for a claim about such an invocation, log 21). -/
def aluInvoke (select : AluSelect) (regA regB : Byte) (s : State) : Result :=
  whenRunning s (aluOperation select regA regB s)

end Sys2Proof.Machine
end

