-- ==== Sys2Proof/Machine/Data.lean ====
section
/-! DEFINITION. LDI and PRN (41_data_ldi_prn.md R75, R76). -/

namespace Sys2Proof.Machine

/-- R75: the immediate goes into a register, never into memory. -/
def execLdi (a b : Byte) (s : State) : Result :=
  writeReg a b s fun s => finish Opcode.ldi s

/-- R76: the register is read, and so checked, before anything is emitted (92 D11, log 17). -/
def execPrn (a : Byte) (s : State) : Result :=
  readReg a s fun v => finish Opcode.prn (s.emit v)

end Sys2Proof.Machine
end

