-- ==== Sys2Proof/Machine/Reserved.lean ====
section
/-! DEFINITION. The reserved opcodes, which hang, and the unlisted opcodes, which do nothing
(45_reserved_unlisted.md R100 to R106). Operand bytes are never examined. -/

namespace Sys2Proof.Machine

/-- No effect and no advance: the next cycle fetches the same byte (R55, R100). A step that changes nothing,
neither a halt nor a fault. -/
def hang (s : State) : Result := .next s

/-- R100. -/
def execRsv54 (_a : Byte) (s : State) : Result := hang s

/-- R101. -/
def execRsv55 (_a : Byte) (s : State) : Result := hang s

/-- R102. -/
def execRsv56 (_a : Byte) (s : State) : Result := hang s

/-- R103. -/
def execNop1 (id : BitVec 6) (s : State) : Result :=
  finish (Opcode.fromFields 0b00#2 id) s

/-- R104. -/
def execNop2 (id : BitVec 6) (_a : Byte) (s : State) : Result :=
  finish (Opcode.fromFields 0b01#2 id) s

/-- R105. -/
def execNop3 (id : BitVec 6) (_a _b : Byte) (s : State) : Result :=
  finish (Opcode.fromFields 0b10#2 id) s

/-- R106: the formula gives 4 (92 D16, log 15). -/
def execNop4 (id : BitVec 6) (_a _b : Byte) (s : State) : Result :=
  finish (Opcode.fromFields 0b11#2 id) s

end Sys2Proof.Machine
end

