-- ==== Sys2Proof/Machine/Stack.lean ====
section
/-! DEFINITION. PUSH and POP (43_stack_push_pop.md R90, R91). `sp` is a temporary loaded once from `x[7]`
(92 D9, log 10). -/

namespace Sys2Proof.Machine

/-- R90: the register is read before `x[7]` changes, so PUSH R7 stores the old stack pointer. -/
def execPush (a : Byte) (s : State) : Result :=
  let sp := spDecrement s.sp
  readReg a s fun v =>
  memWrite sp.toNat v s fun s =>
  finish Opcode.push (s.setSp sp)

/-- R91: the destination is written before the increment is checked; `x[7]` is written from the latched `sp`. -/
def execPop (a : Byte) (s : State) : Result :=
  let sp := s.sp
  memRead sp.toNat s fun v =>
  writeReg a v s fun s =>
  writeSpIncremented sp s fun s =>
  finish Opcode.pop s

end Sys2Proof.Machine
end

