-- ==== Sys2Proof/Machine/Subroutine.lean ====
section
/-! DEFINITION. CALL and RET (44_subroutine_call_ret.md R95, R96). -/

namespace Sys2Proof.Machine

/-- R95: the target is read after `x[7]` was written, so CALL R7 jumps to the new stack pointer, and a register
operand above 7 faults with the stack already written. No advance. -/
def execCall (a : Byte) (s : State) : Result :=
  let sp := spDecrement s.sp
  memWrite sp.toNat (returnByte s.pc) s fun s =>
  readReg a (s.setSp sp) fun t =>
  .next ((s.setSp sp).setPc (zext16 t))

/-- R96: `pc` is loaded before the increment is checked; RET is not excepted from the advance (R20). -/
def execRet (s : State) : Result :=
  let sp := s.sp
  memRead sp.toNat s fun r =>
  writeSpIncremented sp (s.setPc (zext16 r)) fun s =>
  finish Opcode.ret s

end Sys2Proof.Machine
end

