-- ==== Sys2Proof/Machine/System.lean ====
section
/-! DEFINITION. HLT (40_system_hlt.md R70). -/

namespace Sys2Proof.Machine

/-- R70. The advance of the halting cycle is the spec's decision D7 (log 8). -/
def execHlt (s : State) : Result :=
  finish Opcode.hlt (s.halt .hltOpcode)

end Sys2Proof.Machine
end

