-- ==== Sys2Proof/Machine/Dispatch.lean ====
section
/-! DEFINITION. One arm per instruction: steps 2 and 3 of the instruction cycle (10_state.md R19). -/

namespace Sys2Proof.Machine

def exec (i : Instr) (s : State) : Host.Outcome State Fault Refusal :=
  match i with
  | .hlt => Sys2Proof.Machine.execHlt s
  | .ldi a b => Sys2Proof.Machine.execLdi a b s
  | .prn a => Sys2Proof.Machine.execPrn a s
  | .mul a b => Sys2Proof.Machine.execMul a b s
  | .add a b => Sys2Proof.Machine.execAdd a b s
  | .push a => Sys2Proof.Machine.execPush a s
  | .pop a => Sys2Proof.Machine.execPop a s
  | .call a => Sys2Proof.Machine.execCall a s
  | .ret => Sys2Proof.Machine.execRet s
  | .rsv54 a => Sys2Proof.Machine.execRsv54 a s
  | .rsv55 a => Sys2Proof.Machine.execRsv55 a s
  | .rsv56 a => Sys2Proof.Machine.execRsv56 a s
  | .nop1 id => Sys2Proof.Machine.execNop1 id s
  | .nop2 id a => Sys2Proof.Machine.execNop2 id a s
  | .nop3 id a b => Sys2Proof.Machine.execNop3 id a b s
  | .nop4 id a b => Sys2Proof.Machine.execNop4 id a b s

end Sys2Proof.Machine
end

