-- ==== Sys2Proof/Machine/Step.lean ====
section
/-! DEFINITION. One instruction cycle (10_state.md R19), and the placing of one instruction where the next
cycle fetches it. -/

namespace Sys2Proof.Machine

/-- R19: step 0 tests for the end of memory, step 1 fetches, step 2 executes and step 3 advances (both in
`exec`). A machine that has stopped runs no cycle (R18). -/
def step (s : State) : Host.Outcome State Fault Refusal :=
  whenRunning s (softTerminate s (fetch s fun ir a b => exec (decode ir a b) s))

/-- `s` with an instruction of the opcode table placed where the next step fetches (log 19). -/
def State.withFetchWord (s : State) (nbits w : Nat) : State := s.withFetchBytes (tableBytes nbits w)

end Sys2Proof.Machine
end

