-- ==== Sys2Proof/Machine/Loader.lean ====
section
/-! DEFINITION. The image load between reset and the first cycle (70_reset_and_hazards.md R131, R132) and the
program text the image comes from (R133, R134). The loader is outside the core; it is modelled because it fixes
the memory a run starts from (log 12). -/

namespace Sys2Proof.Machine

/-- Why the loader refuses a source; no run then takes place (R133 to R135; 92 D13). The spec has one refusal; that
the model tells three reasons apart, and which one it reports of several, is its choice (DESIGN CHOICE, safe, log 22). -/
inductive LoadError where
  /-- A line with a character other than `0` and `1` after comment and white space are stripped. -/
  | malformedLine
  /-- A literal above 255. -/
  | literalTooLarge
  /-- More than 256 bytes. -/
  | overflow
deriving DecidableEq, Repr

/-- The image load: byte `k` goes to cell `k`; nothing else changes (R132). -/
def loadImage (image : List Byte) (s : State) : Except LoadError State :=
  if image.length ≤ Config.memSize then .ok { s with mem := s.mem.putBytes 0 image }
  else .error .overflow

/-- A line from its start to the first `#`. -/
def stripComment : List Char → List Char
  | [] => []
  | c :: cs => if c = '#' then [] else c :: stripComment cs

/-- A line without its surrounding white space (blank, tab, carriage return, line feed; log 12). -/
def stripSpace (cs : List Char) : List Char :=
  ((cs.dropWhile Char.isWhitespace).reverse.dropWhile Char.isWhitespace).reverse

/-- What is left of a line to be read (R133). -/
def meaningfulPart (line : List Char) : List Char := stripSpace (stripComment line)

/-- A base-2 literal of the digits `0` and `1`, most significant first, with the value read so far. -/
def binaryValue : Nat → List Char → Option Nat
  | acc, [] => some acc
  | acc, c :: cs =>
    if c = '0' then binaryValue (2 * acc) cs
    else if c = '1' then binaryValue (2 * acc + 1) cs
    else none

/-- The byte of a line's non-empty remainder (R133; 92 D13). -/
def byteOfLiteral (cs : List Char) : Except LoadError Byte :=
  match binaryValue 0 cs with
  | none => .error .malformedLine
  | some v => if v < 256 then .ok (BitVec.ofNat 8 v) else .error .literalTooLarge

/-- The bytes of the source's lines in order; a line with nothing left is skipped (R133). Of several bad lines
the first is reported (DESIGN CHOICE, log 22). -/
def bytesOfLines : List (List Char) → Except LoadError (List Byte)
  | [] => .ok []
  | line :: lines =>
    match meaningfulPart line with
    | [] => bytesOfLines lines
    | c :: cs =>
      match byteOfLiteral (c :: cs), bytesOfLines lines with
      | .ok v, .ok vs => .ok (v :: vs)
      | .error e, _ => .error e
      | _, .error e => .error e

/-- The image of a source given as lines: at most 256 bytes (R134; 92 D13). A bad line is reported before
an overflow, wherever it stands (DESIGN CHOICE, log 22). -/
def imageOfLines (lines : List (List Char)) : Except LoadError (List Byte) :=
  match bytesOfLines lines with
  | .error e => .error e
  | .ok image => if image.length ≤ Config.memSize then .ok image else .error .overflow

/-- The lines of a text, split at line feeds. -/
def linesOf : List Char → List (List Char)
  | [] => [[]]
  | c :: cs =>
    match linesOf cs with
    | [] => [[c]]
    | l :: ls => if c = '\n' then [] :: l :: ls else (c :: l) :: ls

/-- The image of a program text (R133). -/
def imageOfSource (text : List Char) : Except LoadError (List Byte) := imageOfLines (linesOf text)

/-- The state at the first cycle of a run: reset, then the image load (R131, R132). -/
def startWithImage (image : List Byte) : Except LoadError State := loadImage image State.reset

/-- The state at the first cycle of a run of a program text. -/
def startWithSource (text : List Char) : Except LoadError State :=
  match imageOfSource text with
  | .error e => .error e
  | .ok image => startWithImage image

end Sys2Proof.Machine
end

