-- ==== Sys2Proof/Safety.lean ====
section
/-! DEFINITION. The terms in which claims about the core are stated: what an instruction leaves alone, when a
cycle executes an instruction, the invariant of every run, and the ends of a run. -/

namespace Sys2Proof.Machine

/-! ## Frames -/

/-- Every byte of memory reads as before. -/
def MemKept (s t : State) : Prop := ∀ a : Nat, t.loadByte a = s.loadByte a

/-- Every byte of memory other than cell `addr` reads as before. -/
def MemKeptExcept (addr : Nat) (s t : State) : Prop := ∀ a : Nat, a ≠ addr → t.loadByte a = s.loadByte a

/-- Every register is unchanged. -/
def RegsKept (s t : State) : Prop := ∀ j : Fin Config.numRegs, t.reg j = s.reg j

/-- Every register other than the one the operand byte `b` names is unchanged. -/
def RegsKeptExcept (b : Byte) (s t : State) : Prop :=
  ∀ j : Fin Config.numRegs, j.val ≠ b.toNat → t.reg j = s.reg j

/-- Every register other than the stack pointer and the one the operand byte `b` names is unchanged. -/
def RegsKeptExceptSpAnd (b : Byte) (s t : State) : Prop :=
  ∀ j : Fin Config.numRegs, j ≠ Config.spIndex → j.val ≠ b.toNat → t.reg j = s.reg j

/-- Every register other than the stack pointer is unchanged. -/
def RegsKeptExceptSp (s t : State) : Prop := ∀ j : Fin Config.numRegs, j ≠ Config.spIndex → t.reg j = s.reg j

/-- The flag register and the output stream are unchanged and the run state is the same. -/
def RestKept (s t : State) : Prop := t.fl = s.fl ∧ t.out = s.out ∧ t.run = s.run

/-! ## Cycles -/

/-- A state in which a cycle executes an instruction: Running and `pc <= 253` (10_state.md R15, R19). -/
def Executes (s : State) : Prop := s.run = .running ∧ s.pc.toNat ≤ lastFetchable

/-- The bytes `bs` lie at the program counter, inside the array. -/
def BytesAtPc (s : State) (bs : List Byte) : Prop :=
  ∀ k : Nat, ∀ h : k < bs.length, s.loadByte (s.pc.toNat + k) = some bs[k]

/-- The opcode byte the next cycle fetches. -/
def opcodeAtPc (s : State) : Byte := s.mem.byteAt s.pc.toNat

/-- The operand byte `a` the next cycle fetches. -/
def operandAtPc (s : State) : Byte := s.mem.byteAt (s.pc.toNat + 1)

/-- The twelve listed opcode values: the nine instructions and the three reserved ones (30_encoding.md R54). -/
def listedOpcodes : List Byte :=
  [0x01#8, 0x82#8, 0x47#8, 0xA2#8, 0xA0#8, 0x45#8, 0x46#8, 0x50#8, 0x11#8, 0x54#8, 0x55#8, 0x56#8]

/-- The opcode values of NOP2 (45_reserved_unlisted.md R104). -/
abbrev IsNop2Opcode (ir : Byte) : Prop :=
  0x40 ≤ ir.toNat ∧ ir.toNat ≤ 0x7F ∧ ir ∉ [0x45#8, 0x46#8, 0x47#8, 0x50#8, 0x54#8, 0x55#8, 0x56#8]

/-- The opcode values of NOP3 (45_reserved_unlisted.md R105). -/
abbrev IsNop3Opcode (ir : Byte) : Prop :=
  0x80 ≤ ir.toNat ∧ ir.toNat ≤ 0xBF ∧ ir ∉ [0x82#8, 0xA0#8, 0xA2#8]

/-- The 256 byte values. -/
def allBytes : List Byte := (List.range 256).map (BitVec.ofNat 8)

/-- The line of a program text that stands for a byte: eight base-2 digits, most significant first
(70_reset_and_hazards.md R133). -/
def binaryLine (v : Byte) : List Char := (List.range 8).map fun k => if v.getLsbD (7 - k) then '1' else '0'

/-! ## The invariant and the ends of a run -/

/-- What holds in every reachable state (10_state.md R24): the memory array keeps its form and its 256 cells,
the program counter stays in 0 to 257, the flag register is 0. Eight registers of 8 bits are the type's. -/
structure State.Inv (s : State) : Prop where
  memForm : s.mem.wf = true
  pcBound : s.pc.toNat ≤ 257
  flagsZero : s.fl = 0#8

/-- The machine has stopped, normally or by a fault (70_reset_and_hazards.md R137). -/
def Stopped (s : State) : Prop := s.run ≠ .running

/-- A normal end: HLT or the end of memory (R137). -/
def EndedNormally (s : State) : Prop := s.run = .halted .hltOpcode ∨ s.run = .halted .endOfMemory

/-- `t` is the state after `k` cycles from `s`. -/
def After (k : Nat) (s t : State) : Prop := Host.Core.run Sys2Proof.core k s = .next t

end Sys2Proof.Machine
end

