-- ==== Sys2Proof/Certificates/Slice0/Obligations.lean ====
section
/-! DEFINITION. The statements for the provers. Where a clause rests on a decision the spec marks as its own
(92_eei_decisions.md) or on a choice of the model, the docstring names it and the log entry. -/

open Sys2Proof Sys2Proof.Machine

/-! ## Reset and program load -/

/-- 10_state.md section 8 (the table of reset values; that `out` starts empty is marked derived there). -/
def Obligations.ResetHoldsTheTabledValues : Prop :=
  (∀ a : Nat, a < 256 → State.reset.loadByte a = some 0#8) ∧
  (∀ j : Fin 8, j ≠ 7 → State.reset.reg j = 0#8) ∧ State.reset.reg 7 = 0xF4#8 ∧
  State.reset.pc = 0#16 ∧ State.reset.fl = 0#8 ∧ State.reset.run = .running ∧ State.reset.out = []

/-- R132: an image of at most 256 bytes, the empty one included, fills the cells from address 0; the other cells
keep 0 and nothing else changes from reset. -/
def Obligations.ImageLoadFillsMemoryFromZero : Prop :=
  ∀ image : List Byte, image.length ≤ 256 →
    ∃ s : State, startWithImage image = .ok s ∧
      (∀ k : Nat, ∀ h : k < image.length, s.loadByte k = some image[k]) ∧
      (∀ k : Nat, image.length ≤ k → k < 256 → s.loadByte k = some 0#8) ∧
      (∀ j : Fin 8, s.reg j = State.reset.reg j) ∧ s.pc = 0#16 ∧ s.fl = 0#8 ∧ s.run = .running ∧ s.out = []

/-- 70_reset_and_hazards.md section 2: in a source, whatever its other lines are, what follows a `#` may be dropped
with the `#`, white space around a line may be dropped, and a line of white space only may be dropped, each without
changing the loader's answer; and a literal with white space around it and a comment behind it is read as its byte.
The white space set is the model's choice (log 12); that both sides may be a refusal is D13, that it is
the same one log 22. -/
def Obligations.CommentsAndBlankLinesDoNotChangeTheImage : Prop :=
  ∀ (pre post : List (List Char)) (l c w₁ w₂ : List Char) (v : Byte),
    (∀ d : Char, d ∈ w₁ ++ w₂ → d ∈ [' ', '\t', '\r', '\n']) →
    imageOfLines (pre ++ (l ++ '#' :: c) :: post) = imageOfLines (pre ++ l :: post) ∧
    imageOfLines (pre ++ (w₁ ++ l ++ w₂) :: post) = imageOfLines (pre ++ l :: post) ∧
    imageOfLines (pre ++ w₁ :: post) = imageOfLines (pre ++ post) ∧
    imageOfLines [w₁ ++ binaryLine v ++ w₂ ++ '#' :: c] = .ok [v]

/-- 70_reset_and_hazards.md section 2: one eight-digit base-2 literal per line loads as those bytes. -/
def Obligations.OneLiteralPerLineLoadsThoseBytes : Prop :=
  ∀ image : List Byte, image.length ≤ 256 → imageOfLines (image.map binaryLine) = .ok image

/-- 70_reset_and_hazards.md section 2 with decision D13 (log 12): 256 bytes load, a 257th makes the source fatal. -/
def Obligations.SourceBeyondMemoryIsRefused : Prop :=
  ∀ (lines : List (List Char)) (bytes : List Byte), bytesOfLines lines = .ok bytes →
    (bytes.length ≤ 256 → imageOfLines lines = .ok bytes) ∧
    (256 < bytes.length → imageOfLines lines = .error .overflow ∧ startWithImage bytes = .error .overflow)

/-! ## Encoding and decoding -/

/-- 30_encoding.md section 3: decoding the bytes of any well-formed instruction, whatever follows them, gives it
back. At least three bytes are fetched in every cycle. -/
def Obligations.DecodeOfEncodeIsTheInstruction : Prop :=
  ∀ i : Instr, i.wellFormed = true → ∀ rest : List Byte,
    3 ≤ (encode i ++ rest).length → decodeBytes (encode i ++ rest) = .ok i

/-- 30_encoding.md sections 1 and 3: what is decoded from three bytes is well-formed, has the length the opcode's
top two bits declare, and encodes to those bytes as far as they were fetched. -/
def Obligations.EncodeOfDecodeIsTheFetchedBytes : Prop :=
  ∀ ir a b : Byte, (decode ir a b).wellFormed = true ∧
    (encode (decode ir a b)).length = ir.toNat / 64 + 1 ∧
    (encode (decode ir a b)).take 3 <+: [ir, a, b]

/-- 30_encoding.md section 4, with the advance of 10_state.md section 3: each of the 256 values is in exactly one row
of the opcode map, the decoder gives that row whatever the operand bytes are, and the default arm does nothing but the
generic advancement. That `0xC0` to `0xFF` advance by 4 is D16 (log 15). -/
def Obligations.DecoderIsTotalWithOneRowPerOpcode : Prop :=
  (∀ ir : Byte, (opcodeTable.filter fun r => r.selects ir).length = 1) ∧
  (∀ (ir a b : Byte) (r : OpcodeRow), r ∈ opcodeTable → r.selects ir = true → (decode ir a b).mnemonic = r.mnemonic) ∧
  (∀ (ir a b : Byte) (s : State), ir ∉ listedOpcodes →
    exec (decode ir a b) s = .next (s.setPc (s.pc + BitVec.ofNat 16 (ir.toNat / 64 + 1))))

/-- 30_encoding.md section 3: words written out from the encodings, one per family. -/
def Obligations.WordsOfTheOpcodeMapDecode : Prop :=
  decode 0b00000001#8 0x00#8 0x00#8 = .hlt ∧
  decode 0b10000010#8 0x03#8 0xFF#8 = .ldi 0x03#8 0xFF#8 ∧
  decode 0b01000111#8 0x02#8 0x01#8 = .prn 0x02#8 ∧
  decode 0b10100010#8 0x00#8 0x01#8 = .mul 0x00#8 0x01#8 ∧
  decode 0b01000110#8 0x07#8 0x01#8 = .pop 0x07#8 ∧
  decode 0b00010001#8 0x00#8 0x00#8 = .ret ∧
  decode 0b01010101#8 0x09#8 0x00#8 = .rsv55 0x09#8 ∧
  decode 0b10100111#8 0x00#8 0x01#8 = .nop3 0b100111#6 0x00#8 0x01#8

/-- 10_state.md section 3 (the cycle): when the bytes at the program counter are those of a well-formed
instruction and `pc <= 253`, a step is that instruction's meaning; nothing is added around it. Of NOP4 only the
three fetched bytes matter. -/
def Obligations.StepRunsTheDecodedInstruction : Prop :=
  ∀ (i : Instr) (s : State), i.wellFormed = true → Executes s → BytesAtPc s ((encode i).take 3) →
    step s = exec i s

/-! ## The primitives -/

/-- R5: the index is the whole operand byte; 0 to 7 read or write that register, 8 to 255 raise RegIndexFault at
that statement, and the rest of the instruction does not happen. -/
def Obligations.RegisterPrimitivesCheckTheWholeIndex : Prop :=
  ∀ (i v : Byte) (s : State) (restR : Byte → Result) (restW : State → Result),
    (∀ h : i.toNat < 8, readReg i s restR = restR (s.reg ⟨i.toNat, h⟩)) ∧
    (8 ≤ i.toNat → readReg i s restR = raise (.regIndexFault i) s) ∧
    (∀ h : i.toNat < 8, ∃ t : State, writeReg i v s restW = restW t ∧ t.reg ⟨i.toNat, h⟩ = v ∧
      RegsKeptExcept i s t ∧ MemKept s t ∧ t.pc = s.pc ∧ RestKept s t) ∧
    (8 ≤ i.toNat → writeReg i v s restW = raise (.regIndexFault i) s)

/-- 00_scope.md section 6 and 20_memory.md section 9: inside the array a read gives the latest write to that cell
and every other cell is untouched; outside it both primitives raise MemRangeFault. The memory is in the form the
invariant says. -/
def Obligations.MemoryReadsTheLatestWrite : Prop :=
  ∀ (a c : Nat) (v : Byte) (s : State) (restR : Byte → Result) (restW : State → Result), s.mem.wf = true →
    (a < 256 → c < 256 →
      memWrite a v s (fun u => memRead c u restR) = if c = a then restR v else memRead c s restR) ∧
    (256 ≤ a → memWrite a v s restW = raise (.memRangeFault a) s ∧ memRead a s restR = raise (.memRangeFault a) s)

/-! ## What each instruction does, with its frame -/

/-- 40_system_hlt.md: HLT completes in every state; the machine is then Halted(HltOpcode). That `pc` advances by 1
in the halting cycle is decision D7 (log 8). -/
def Obligations.HltHaltsTheMachine : Prop :=
  ∀ s : State, ∃ t : State, exec .hlt s = .next t ∧ t.run = .halted .hltOpcode ∧ t.pc = s.pc + 1#16 ∧
    RegsKept s t ∧ MemKept s t ∧ t.fl = s.fl ∧ t.out = s.out

/-- 41_data_ldi_prn.md: LDI completes for every register operand 0 to 7, register 7 included, and writes the
immediate to that register and nothing to memory. -/
def Obligations.LdiWritesTheImmediateToTheRegister : Prop :=
  ∀ (a b : Byte) (ha : a.toNat < 8) (s : State), ∃ t : State, exec (.ldi a b) s = .next t ∧
    t.reg ⟨a.toNat, ha⟩ = b ∧ t.pc = s.pc + 3#16 ∧
    RegsKeptExcept a s t ∧ MemKept s t ∧ RestKept s t

/-- 41_data_ldi_prn.md: PRN completes for every register operand 0 to 7 and appends that register's value to the
output (an 8-bit value: D11, log 17). -/
def Obligations.PrnAppendsTheRegisterToTheOutput : Prop :=
  ∀ (a : Byte) (ha : a.toNat < 8) (s : State), ∃ t : State, exec (.prn a) s = .next t ∧
    t.out = s.out ++ [s.reg ⟨a.toNat, ha⟩] ∧ t.pc = s.pc + 2#16 ∧
    RegsKept s t ∧ MemKept s t ∧ t.fl = s.fl ∧ t.run = s.run

/-- 42_alu_mul_add.md: MUL completes for register operands 0 to 7, equal or not; the product of the two old values
modulo 256 (the wrap is D2, log 3), no flag. -/
def Obligations.MulStoresTheProductModulo256 : Prop :=
  ∀ (a b : Byte) (ha : a.toNat < 8) (hb : b.toNat < 8) (s : State), ∃ t : State, exec (.mul a b) s = .next t ∧
    (t.reg ⟨a.toNat, ha⟩).toNat = ((s.reg ⟨a.toNat, ha⟩).toNat * (s.reg ⟨b.toNat, hb⟩).toNat) % 256 ∧
    t.pc = s.pc + 3#16 ∧ RegsKeptExcept a s t ∧ MemKept s t ∧ RestKept s t

/-- 42_alu_mul_add.md: ADD completes for register operands 0 to 7, equal or not; the sum of the two old values
modulo 256 (the wrap is D2, log 3), no flag. -/
def Obligations.AddStoresTheSumModulo256 : Prop :=
  ∀ (a b : Byte) (ha : a.toNat < 8) (hb : b.toNat < 8) (s : State), ∃ t : State, exec (.add a b) s = .next t ∧
    (t.reg ⟨a.toNat, ha⟩).toNat = ((s.reg ⟨a.toNat, ha⟩).toNat + (s.reg ⟨b.toNat, hb⟩).toNat) % 256 ∧
    t.pc = s.pc + 3#16 ∧ RegsKeptExcept a s t ∧ MemKept s t ∧ RestKept s t

/-- 43_stack_push_pop.md: PUSH completes for register operands 0 to 7; the register's old value (for register 7 the
undecremented stack pointer: D9, log 10) goes to the cell below the stack pointer, which wraps at 0. -/
def Obligations.PushStoresBelowTheStackPointer : Prop :=
  ∀ (a : Byte) (ha : a.toNat < 8) (s : State), ∃ t : State, exec (.push a) s = .next t ∧
    (t.reg 7).toNat = ((s.reg 7).toNat + 255) % 256 ∧
    (s.mem.wf = true → t.loadByte (spDecrement s.sp).toNat = some (s.reg ⟨a.toNat, ha⟩)) ∧
    t.pc = s.pc + 2#16 ∧ RegsKeptExceptSp s t ∧ MemKeptExcept (spDecrement s.sp).toNat s t ∧ RestKept s t

/-- 43_stack_push_pop.md: POP completes for register operands 0 to 7 unless the stack pointer is `0xFF`; the byte
at the stack pointer goes to the register, then register 7 is the latched stack pointer plus 1, which is all that
is left of POP R7 (D9, log 10). -/
def Obligations.PopLoadsFromTheStackPointer : Prop :=
  ∀ (a : Byte) (ha : a.toNat < 8) (s : State), s.reg 7 ≠ 0xFF#8 → ∃ t : State, exec (.pop a) s = .next t ∧
    (t.reg 7).toNat = (s.reg 7).toNat + 1 ∧
    (a.toNat ≠ 7 → s.loadByte (s.reg 7).toNat = some (t.reg ⟨a.toNat, ha⟩)) ∧
    t.pc = s.pc + 2#16 ∧ RegsKeptExceptSpAnd a s t ∧ MemKept s t ∧ RestKept s t

/-- 44_subroutine_call_ret.md: CALL completes for register operands 0 to 7; it stores the low byte of `pc + 1` below
the stack pointer (wrap at 0: D4, log 5) and jumps to the register, which for register 7 is the new stack pointer
(D9, log 10). No advance. -/
def Obligations.CallStoresTheReturnByteAndJumps : Prop :=
  ∀ (a : Byte) (ha : a.toNat < 8) (s : State), ∃ t : State, exec (.call a) s = .next t ∧
    (t.reg 7).toNat = ((s.reg 7).toNat + 255) % 256 ∧
    (s.mem.wf = true → t.loadByte (spDecrement s.sp).toNat = some (BitVec.ofNat 8 (s.pc.toNat + 1))) ∧
    t.pc.toNat = (if a.toNat = 7 then spDecrement s.sp else s.reg ⟨a.toNat, ha⟩).toNat ∧
    RegsKeptExceptSp s t ∧ MemKeptExcept (spDecrement s.sp).toNat s t ∧ RestKept s t

/-- 44_subroutine_call_ret.md: RET completes unless the stack pointer is `0xFF`; the program counter becomes the
byte at the stack pointer plus 1 (RET is not excepted from the advance). -/
def Obligations.RetContinuesAfterTheStoredByte : Prop :=
  ∀ s : State, s.reg 7 ≠ 0xFF#8 → ∃ (r : Byte) (t : State), s.loadByte (s.reg 7).toNat = some r ∧
    exec .ret s = .next t ∧ t.pc.toNat = r.toNat + 1 ∧
    (t.reg 7).toNat = (s.reg 7).toNat + 1 ∧ RegsKeptExceptSp s t ∧ MemKept s t ∧ RestKept s t

/-- 45_reserved_unlisted.md section 1: each reserved opcode completes with the whole state unchanged, whatever its
operand byte. -/
def Obligations.ReservedOpcodesChangeNothing : Prop :=
  ∀ (a : Byte) (s : State), exec (.rsv54 a) s = .next s ∧ exec (.rsv55 a) s = .next s ∧ exec (.rsv56 a) s = .next s

/-- 45_reserved_unlisted.md section 2: each no-operation completes and changes only the program counter, by 1, 2, 3
and 4 (the 4 is D16, log 15), whatever its operand bytes. -/
def Obligations.NoOperationsOnlyAdvance : Prop :=
  ∀ (id : BitVec 6) (a b : Byte) (s : State),
    exec (.nop1 id) s = .next (s.setPc (s.pc + 1#16)) ∧ exec (.nop2 id a) s = .next (s.setPc (s.pc + 2#16)) ∧
    exec (.nop3 id a b) s = .next (s.setPc (s.pc + 3#16)) ∧ exec (.nop4 id a b) s = .next (s.setPc (s.pc + 4#16))

/-! ## Whole cycles by opcode -/

/-- R55: at each of the three reserved opcodes a cycle leaves the state as it is, and so does any number of cycles:
an infinite refetch, neither a trap nor an advance. -/
def Obligations.ReservedOpcodesRefetchForEver : Prop :=
  ∀ s : State, Executes s → opcodeAtPc s ∈ [0b01010100#8, 0b01010101#8, 0b01010110#8] →
    step s = .next s ∧ ∀ k : Nat, After k s s

/-- 30_encoding.md section 4: the 244 unlisted opcodes, `0x00` among them as NOP1, have no effect but an advance by the
bytes their top two bits declare; and no opcode value faults by being what it is: with register operands 0 to 7 and a
stack pointer that can be incremented, no opcode ends a cycle in a fault. That `0xC0` to `0xFF` advance by 4 is D16
(log 15); that CALL at stack pointer 0 does not fault is D4 (log 5). -/
def Obligations.UnlistedOpcodesOnlyAdvanceAndNoOpcodeTraps : Prop :=
  (∀ s : State, Executes s → opcodeAtPc s ∉ listedOpcodes →
    step s = .next (s.setPc (s.pc + BitVec.ofNat 16 ((opcodeAtPc s).toNat / 64 + 1)))) ∧
  (allBytes.filter fun ir => !listedOpcodes.contains ir).length = 244 ∧
  (∀ a b : Byte, (decode 0x00#8 a b).mnemonic = .nop1) ∧
  (∀ s : State, Executes s → (operandAtPc s).toNat < 8 → (s.mem.byteAt (s.pc.toNat + 2)).toNat < 8 →
    s.reg 7 ≠ 0xFF#8 → ∃ t : State, step s = .next t ∧ ∀ c : FaultCause, t.run ≠ .faulted c)

/-- R104: the 57 opcodes of NOP2, two bytes long; the operand byte is skipped. -/
def Obligations.Nop2SkipsItsOperandByte : Prop :=
  (∀ ir a b : Byte, (decode ir a b).mnemonic = .nop2 ↔ IsNop2Opcode ir) ∧
  (allBytes.filter fun ir => IsNop2Opcode ir).length = 57 ∧
  (∀ s : State, Executes s → IsNop2Opcode (opcodeAtPc s) → step s = .next (s.setPc (s.pc + 2#16)))

/-- R105: the 61 opcodes of NOP3, three bytes long; both operand bytes are skipped. -/
def Obligations.Nop3SkipsBothOperandBytes : Prop :=
  (∀ ir a b : Byte, (decode ir a b).mnemonic = .nop3 ↔ IsNop3Opcode ir) ∧
  (allBytes.filter fun ir => IsNop3Opcode ir).length = 61 ∧
  (∀ s : State, Executes s → IsNop3Opcode (opcodeAtPc s) → step s = .next (s.setPc (s.pc + 3#16)))

/-- 10_state.md section 3 (generic advancement): every instruction but CALL and the three reserved ones, unless it
faults, leaves the program counter at its old value, or for RET at the byte it loaded, plus the amount of its own
opcode (the latched one: D17, log 16; HLT is included: D7, log 8). -/
def Obligations.GenericAdvancementByTheOpcodesTopBits : Prop :=
  ∀ (i : Instr) (s t : State), exec i s = .next t → (∀ c : FaultCause, t.run ≠ .faulted c) →
    i.mnemonic ∉ [.call, .rsv54, .rsv55, .rsv56] →
    t.pc = (if i.mnemonic = .ret then zext16 (s.mem.byteAt (s.reg 7).toNat) else s.pc) +
      BitVec.ofNat 16 (i.opcode.toNat / 64 + 1)

/-! ## Faults and the end of a run -/

/-- 60_exceptions.md (RegIndexFault; the Faulted state is D8, the order D15, log 9): a register operand above 7
faults with nothing else changed in LDI, PRN, MUL, ADD (operand a before operand b), PUSH and POP (even at stack
pointer `0xFF`); CALL has stored its return byte and moved the stack pointer (from 0 to `0xFF`: D4, log 5). -/
def Obligations.RegisterOperandAboveSevenFaults : Prop :=
  ∀ (a b : Byte) (s : State), 8 ≤ a.toNat →
    (∀ i : Instr, i ∈ [Instr.ldi a b, .prn a, .mul a b, .add a b, .push a, .pop a] →
      exec i s = .next (s.setRun (.faulted (.regIndexFault a)))) ∧
    (∀ c : Byte, c.toNat < 8 → ∀ i : Instr, i ∈ [Instr.mul c a, .add c a] →
      exec i s = .next (s.setRun (.faulted (.regIndexFault a)))) ∧
    (∃ t : State, exec (.call a) s = .next t ∧ t.run = .faulted (.regIndexFault a) ∧
      (t.reg 7).toNat = ((s.reg 7).toNat + 255) % 256 ∧
      (s.mem.wf = true → t.loadByte (spDecrement s.sp).toNat = some (BitVec.ofNat 8 (s.pc.toNat + 1))) ∧
      RegsKeptExceptSp s t ∧ MemKeptExcept (spDecrement s.sp).toNat s t ∧
      t.pc = s.pc ∧ t.fl = s.fl ∧ t.out = s.out)

/-- 60_exceptions.md (SpIncrementOverflow: D3, log 4; the state left behind: D15, log 9): POP and RET at stack
pointer `0xFF` fault after the destination is written. The register POP names holds `M[0xFF]`, register 7 too
when it is the one named (log 10). -/
def Obligations.StackPointerIncrementFaultsAtTop : Prop :=
  ∀ s : State, s.reg 7 = 0xFF#8 →
    (∀ (a : Byte) (ha : a.toNat < 8), ∃ t : State, exec (.pop a) s = .next t ∧
      t.run = .faulted (.spIncrementOverflow 0xFF#8) ∧ s.loadByte 0xFF = some (t.reg ⟨a.toNat, ha⟩) ∧
      RegsKeptExcept a s t ∧ MemKept s t ∧ t.pc = s.pc ∧ t.fl = s.fl ∧ t.out = s.out) ∧
    (∃ t : State, exec .ret s = .next t ∧ t.run = .faulted (.spIncrementOverflow 0xFF#8) ∧
      t.pc = zext16 (s.mem.byteAt 0xFF) ∧ RegsKept s t ∧ MemKept s t ∧ t.fl = s.fl ∧ t.out = s.out)

/-- 60_exceptions.md (MemRangeFault; D6, log 7): a cycle at `pc` 254 or 255 faults with info 256, whatever byte lies
there, and changes nothing else. -/
def Obligations.FetchInTheLastTwoCellsFaults : Prop :=
  ∀ s : State, s.run = .running → (s.pc = 254#16 ∨ s.pc = 255#16) →
    ∃ t : State, step s = .next t ∧ t.run = .faulted (.memRangeFault 256) ∧ t.pc = s.pc ∧
      RegsKept s t ∧ MemKept s t ∧ t.fl = s.fl ∧ t.out = s.out

/-- 10_state.md section 3 (soft termination; the test `pc >= 256` before any fetch is D5, log 6): no state but
`run` changes. -/
def Obligations.EndOfMemoryHaltsSoftly : Prop :=
  ∀ s : State, s.run = .running → 256 ≤ s.pc.toNat →
    ∃ t : State, step s = .next t ∧ t.run = .halted .endOfMemory ∧ t.pc = s.pc ∧
      RegsKept s t ∧ MemKept s t ∧ t.fl = s.fl ∧ t.out = s.out

/-- 10_state.md section 3 (run state; D8, log 9; what a stopped machine answers is log 1): a machine takes a step
exactly while it is Running, and no step is refused. -/
def Obligations.OnlyARunningMachineSteps : Prop :=
  ∀ s : State, ((∃ t : State, step s = .next t) ↔ s.run = .running) ∧ (∀ r : Refusal, step s ≠ .refused r) ∧
    ((∃ f : Fault, step s = .fault f) ↔ Stopped s)

/-- 10_state.md section 3 (run-state transitions) and 60_exceptions.md section 1 (the causes; D8, log 9): how a step
can leave Running, and under which conditions. AluUnsupportedOp is never among them. -/
def Obligations.RunLeavesRunningOnlyAsTabled : Prop :=
  ∀ s t : State, step s = .next t →
    t.run = .running ∨
    (t.run = .halted .hltOpcode ∧ Executes s ∧ opcodeAtPc s = 0x01#8) ∨
    (t.run = .halted .endOfMemory ∧ 256 ≤ s.pc.toNat) ∨
    (t.run = .faulted (.memRangeFault 256) ∧ (s.pc = 254#16 ∨ s.pc = 255#16)) ∨
    (∃ i : Byte, t.run = .faulted (.regIndexFault i) ∧ 8 ≤ i.toNat ∧ Executes s ∧
      ((opcodeAtPc s ∈ [0x82#8, 0x47#8, 0xA2#8, 0xA0#8, 0x45#8, 0x46#8, 0x50#8] ∧ i = operandAtPc s) ∨
       (opcodeAtPc s ∈ [0xA2#8, 0xA0#8] ∧ i = s.mem.byteAt (s.pc.toNat + 2)))) ∨
    (t.run = .faulted (.spIncrementOverflow 0xFF#8) ∧ Executes s ∧ opcodeAtPc s ∈ [0x46#8, 0x11#8] ∧
      s.reg 7 = 0xFF#8)

/-! ## Whole-machine rules -/

/-- 10_state.md section 6: from every state that meets the invariant a step gives one that meets it. -/
def Obligations.EveryStepKeepsTheInvariant : Prop :=
  ∀ s t : State, s.Inv → step s = .next t → t.Inv

/-- 10_state.md sections 6 and 8: the invariant holds at reset. -/
def Obligations.ResetMeetsTheInvariant : Prop := State.reset.Inv

/-- 10_state.md section 2 (the flag register): no run of any length changes it. -/
def Obligations.NoCycleWritesTheFlagRegister : Prop :=
  ∀ (k : Nat) (s t : State), After k s t → t.fl = s.fl

/-- 10_state.md section 3 (the flag register is dead state): a step does not depend on it. -/
def Obligations.NoCycleReadsTheFlagRegister : Prop :=
  ∀ (s t : State) (v : Byte), step s = .next t → step (s.setFl v) = .next (t.setFl v)

/-- 10_state.md section 5: the output only grows, over any run; one cycle adds at most one value, and only PRN adds
one. -/
def Obligations.OutputIsAppendOnly : Prop :=
  (∀ (k : Nat) (s t : State), After k s t → s.out <+: t.out) ∧
  (∀ s t : State, step s = .next t →
    t.out = s.out ∨ (Executes s ∧ opcodeAtPc s = 0x47#8 ∧ ∃ v : Byte, t.out = s.out ++ [v]))

/-- 10_state.md section 5: the machine never reads its output. -/
def Obligations.NoCycleReadsTheOutput : Prop :=
  ∀ (s t : State) (o : List Byte), step s = .next t →
    ∃ w : List Byte, t.out = s.out ++ w ∧ step { s with out := o } = .next { t with out := o ++ w }

/-- 10_state.md section 1 and 20_memory.md section 5: a cycle changes at most the cell below the stack pointer, and
only PUSH and CALL change any. -/
def Obligations.OnlyPushAndCallWriteMemory : Prop :=
  ∀ s t : State, step s = .next t →
    MemKeptExcept (spDecrement s.sp).toNat s t ∧
    (¬ (Executes s ∧ opcodeAtPc s ∈ [0x45#8, 0x50#8]) → MemKept s t)

/-- 10_state.md section 2 (which instruction writes which register): in a cycle a register other than 7 changes only
if it is operand a of LDI, MUL, ADD or POP, and register 7 only by these or by PUSH, POP, CALL or RET. -/
def Obligations.RegistersChangeOnlyAsTabled : Prop :=
  ∀ (s t : State) (j : Fin 8), step s = .next t → t.reg j ≠ s.reg j → Executes s ∧
    ((opcodeAtPc s ∈ [0x82#8, 0xA2#8, 0xA0#8, 0x46#8] ∧ (operandAtPc s).toNat = j.val) ∨
     (opcodeAtPc s ∈ [0x45#8, 0x46#8, 0x50#8, 0x11#8] ∧ j = 7))

/-- 20_memory.md section 11: a PUSH onto the next instruction's opcode is what the next cycle fetches. -/
def Obligations.AStoreIsSeenByTheNextFetch : Prop :=
  ∀ (r : Byte) (hr : r.toNat < 8) (s : State), s.mem.wf = true → Executes s → BytesAtPc s [0x45#8, r] →
    s.pc.toNat + 2 ≤ 253 → (spDecrement s.sp).toNat = s.pc.toNat + 2 →
    ∃ t : State, step s = .next t ∧ t.pc.toNat = s.pc.toNat + 2 ∧ opcodeAtPc t = s.reg ⟨r.toNat, hr⟩ ∧
      step t = exec (decode (s.reg ⟨r.toNat, hr⟩) (s.mem.byteAt (s.pc.toNat + 3)) (s.mem.byteAt (s.pc.toNat + 4))) t

/-- 43_stack_push_pop.md (the push-pop law, derived there, with its conditions): two cycles restore the stack pointer
and move the value. -/
def Obligations.PushThenPopMovesTheValue : Prop :=
  ∀ (r1 r2 : Byte) (h1 : r1.toNat < 8) (h2 : r2.toNat < 7) (s : State),
    s.mem.wf = true → s.run = .running → s.pc.toNat + 2 ≤ 253 → BytesAtPc s [0x45#8, r1, 0x46#8, r2] →
    s.reg 7 ≠ 0#8 → (spDecrement s.sp).toNat ≠ s.pc.toNat + 2 → (spDecrement s.sp).toNat ≠ s.pc.toNat + 3 →
    ∃ t : State, After 2 s t ∧ t.reg 7 = s.reg 7 ∧
      t.reg ⟨r2.toNat, Nat.lt_of_lt_of_le h2 (by decide)⟩ = s.reg ⟨r1.toNat, h1⟩ ∧ t.pc = s.pc + 4#16

/-- 44_subroutine_call_ret.md (the call-return law, derived there, with its conditions): CALL goes to the register's
value; a RET reached later with the stack pointer CALL left and the return byte's cell as CALL left it continues at
the CALL's address plus 2 with the stack pointer restored. -/
def Obligations.ReturnContinuesAfterTheCall : Prop :=
  ∀ (r : Byte) (hr : r.toNat < 7) (s : State),
    s.mem.wf = true → Executes s → BytesAtPc s [0x50#8, r] → s.reg 7 ≠ 0#8 →
    ∃ t : State, step s = .next t ∧
      t.pc.toNat = (s.reg ⟨r.toNat, Nat.lt_of_lt_of_le hr (by decide)⟩).toNat ∧
      ∀ u : State, Executes u → opcodeAtPc u = 0x11#8 → u.reg 7 = t.reg 7 →
        u.loadByte (t.reg 7).toNat = t.loadByte (t.reg 7).toNat →
        ∃ v : State, step u = .next v ∧ v.pc.toNat = s.pc.toNat + 2 ∧ v.reg 7 = s.reg 7

/-! ## The ALU helper, invoked directly -/

/-- 42_alu_mul_add.md section 3 (CMP): on a Running machine the flag register gets 1, 2 or 4 as the arguments
themselves are equal, greater or less, bits 7:3 zero (D10, log 11), whatever the registers hold; nothing else changes
and no index is checked. -/
def Obligations.AluCompareSetsOneFlagFromTheArguments : Prop :=
  ∀ (p q : Byte) (s : State), s.run = .running → ∃ t : State, aluInvoke .cmp p q s = .next t ∧
    (p.toNat = q.toNat → t.fl = 0x01#8) ∧ (q.toNat < p.toNat → t.fl = 0x02#8) ∧ (p.toNat < q.toNat → t.fl = 0x04#8) ∧
    RegsKept s t ∧ MemKept s t ∧ t.pc = s.pc ∧ t.out = s.out ∧ t.run = s.run

/-- 42_alu_mul_add.md section 3 (ADD): on a Running machine the helper's ADD has the effect of the instruction ADD
(wrap: D2, log 3) except the advance, and the same faults. -/
def Obligations.AluAddAgreesWithTheInstruction : Prop :=
  ∀ (a b : Byte) (s : State), s.run = .running →
    (a.toNat < 8 → b.toNat < 8 → ∃ t : State, aluInvoke .add a b s = .next t ∧ t.pc = s.pc ∧ t.fl = s.fl ∧
      exec (.add a b) s = .next (t.setPc (s.pc + 3#16))) ∧
    ((8 ≤ a.toNat ∨ 8 ≤ b.toNat) → aluInvoke .add a b s = exec (.add a b) s)

/-- 42_alu_mul_add.md section 3 (any other operation, on a Running machine; Faulted is D8, log 9; the select value is
a label, log 14). -/
def Obligations.AluUnsupportedOperationFaults : Prop :=
  ∀ (n : Nat) (p q : Byte) (s : State), s.run = .running → ∃ t : State, aluInvoke (.other n) p q s = .next t ∧
    t.run = .faulted (.aluUnsupportedOp n) ∧ RegsKept s t ∧ MemKept s t ∧ t.pc = s.pc ∧ t.fl = s.fl ∧ t.out = s.out

/-- 10_state.md section 3 (run state) and 60_exceptions.md section 6, for the ALU helper: an invocation answers a next
state exactly on a Running machine, and leaves it Running or Faulted; on a Halted or Faulted one it does nothing and
answers what a step there answers (the form of that answer is the model's, log 1; that it extends to the helper,
log 21). -/
def Obligations.AluHelperActsOnARunningMachineOnly : Prop :=
  ∀ (select : AluSelect) (p q : Byte) (s : State),
    ((∃ t : State, aluInvoke select p q s = .next t) ↔ s.run = .running) ∧
    (∀ t : State, aluInvoke select p q s = .next t → t.run = .running ∨ ∃ c : FaultCause, t.run = .faulted c) ∧
    (s.run ≠ .running → aluInvoke select p q s = step s)
end

