-- ==== Sys2Proof/Laws/Decode.lean ====
section
/-! SUPPORT. The opcode byte and its two fields (30_encoding.md R51). -/

namespace Sys2Proof

@[simp] theorem countField_fromFields (n : BitVec 2) (id : BitVec 6) :
    Opcode.countField (Opcode.fromFields n id) = n := by
  revert n id
  decide

@[simp] theorem idField_fromFields (n : BitVec 2) (id : BitVec 6) :
    Opcode.idField (Opcode.fromFields n id) = id := by
  revert n id
  decide

/-- An opcode byte is its two fields put together. -/
theorem fromFields_eta (ir : Byte) : Opcode.fromFields (Opcode.countField ir) (Opcode.idField ir) = ir := by
  revert ir
  decide

/-! The decoder's thirteen arms (R54): the twelve listed values and the default. -/

@[simp] theorem decode_hlt (a b : Byte) : decode Opcode.hlt a b = .hlt := rfl
@[simp] theorem decode_ldi (a b : Byte) : decode Opcode.ldi a b = .ldi a b := rfl
@[simp] theorem decode_prn (a b : Byte) : decode Opcode.prn a b = .prn a := rfl
@[simp] theorem decode_mul (a b : Byte) : decode Opcode.mul a b = .mul a b := rfl
@[simp] theorem decode_add (a b : Byte) : decode Opcode.add a b = .add a b := rfl
@[simp] theorem decode_push (a b : Byte) : decode Opcode.push a b = .push a := rfl
@[simp] theorem decode_pop (a b : Byte) : decode Opcode.pop a b = .pop a := rfl
@[simp] theorem decode_call (a b : Byte) : decode Opcode.call a b = .call a := rfl
@[simp] theorem decode_ret (a b : Byte) : decode Opcode.ret a b = .ret := rfl
@[simp] theorem decode_rsv54 (a b : Byte) : decode Opcode.rsv54 a b = .rsv54 a := rfl
@[simp] theorem decode_rsv55 (a b : Byte) : decode Opcode.rsv55 a b = .rsv55 a := rfl
@[simp] theorem decode_rsv56 (a b : Byte) : decode Opcode.rsv56 a b = .rsv56 a := rfl

theorem decode_default {ir : Byte} (a b : Byte)
    (h : ir ∉ [Opcode.hlt, Opcode.ldi, Opcode.prn, Opcode.mul, Opcode.add, Opcode.push, Opcode.pop, Opcode.call,
      Opcode.ret, Opcode.rsv54, Opcode.rsv55, Opcode.rsv56]) : decode ir a b = decodeUnlisted ir a b := by
  simp only [List.mem_cons, not_or, List.not_mem_nil] at h
  simp [decode, h]

/-- The count field as a number (R51). -/
theorem countField_toNat (ir : Byte) : (Opcode.countField ir).toNat = ir.toNat / 64 := by
  revert ir
  decide

/-- The decoder never leaves a byte string of three or more bytes undecoded (R57). -/
theorem decodeBytes_cons (ir a b : Byte) (rest : List Byte) :
    decodeBytes (ir :: a :: b :: rest) = .ok (decode ir a b) := rfl

end Sys2Proof
end

