-- ==== Sys2Proof/Laws/Memory.lean ====
section
/-! SUPPORT. The memory laws: a read after a write, the canonical form, and that the form makes equal memories
equal data. -/

namespace Sys2Proof.Machine

theorem byteAt_listed_same (a : Nat) (v : Byte) (m : Memory) (h : Memory.byteAt m a = Config.cellReset) :
    Memory.byteAt (Memory.listed a v m) a = v := by
  unfold Memory.listed
  split
  · simp_all
  · simp [Memory.byteAt]

theorem byteAt_listed_other {a c : Nat} (v : Byte) (m : Memory) (h : c ≠ a) :
    Memory.byteAt (Memory.listed a v m) c = Memory.byteAt m c := by
  unfold Memory.listed
  split
  · rfl
  · simp [Memory.byteAt, Ne.symm h]

/-- Below its first address a memory in canonical form lists nothing. -/
theorem byteAt_below {lo a : Nat} {m : Memory} (hm : Memory.wfFrom lo m = true) (ha : a < lo) :
    Memory.byteAt m a = Config.cellReset := by
  induction m generalizing lo with
  | nil => rfl
  | cons c m ih =>
    obtain ⟨k, w⟩ := c
    simp only [Memory.wfFrom, Bool.and_eq_true, decide_eq_true_eq] at hm
    have hk : k ≠ a := by omega
    simp only [Memory.byteAt, hk, if_false]
    exact ih hm.2 (by omega)

/-- A memory in canonical form lists no address outside the array. -/
theorem byteAt_outside {lo a : Nat} {m : Memory} (hm : Memory.wfFrom lo m = true) (ha : Config.memSize ≤ a) :
    Memory.byteAt m a = Config.cellReset := by
  induction m generalizing lo with
  | nil => rfl
  | cons c m ih =>
    obtain ⟨k, w⟩ := c
    simp only [Memory.wfFrom, Bool.and_eq_true, decide_eq_true_eq] at hm
    have hk : k ≠ a := by omega
    simp only [Memory.byteAt, hk, if_false]
    exact ih hm.2

theorem byteAt_put_other {a c : Nat} (v : Byte) (m : Memory) (h : c ≠ a) :
    Memory.byteAt (Memory.put m a v) c = Memory.byteAt m c := by
  induction m with
  | nil => exact byteAt_listed_other v [] h
  | cons d m ih =>
    obtain ⟨k, w⟩ := d
    simp only [Memory.put]
    split
    · exact byteAt_listed_other v _ h
    · split
      · rename_i hk
        rw [byteAt_listed_other v m h]
        simp [Memory.byteAt, ← hk, Ne.symm h]
      · simp [Memory.byteAt, ih]

theorem byteAt_put_same {lo a : Nat} (v : Byte) {m : Memory} (hm : Memory.wfFrom lo m = true) :
    Memory.byteAt (Memory.put m a v) a = v := by
  induction m generalizing lo with
  | nil => exact byteAt_listed_same a v [] rfl
  | cons d m ih =>
    obtain ⟨k, w⟩ := d
    have hd := hm
    simp only [Memory.wfFrom, Bool.and_eq_true, decide_eq_true_eq] at hd
    simp only [Memory.put]
    split
    · rename_i hlt
      apply byteAt_listed_same
      simp only [Memory.byteAt, Nat.ne_of_gt hlt, if_false]
      exact byteAt_below hd.2 (by omega)
    · split
      · rename_i hk
        exact byteAt_listed_same a v m (byteAt_below hd.2 (by omega))
      · rename_i hk
        simp only [Memory.byteAt, Ne.symm hk, if_false]
        exact ih hd.2

theorem wfFrom_mono {lo lo' : Nat} {m : Memory} (h : lo' ≤ lo) (hm : Memory.wfFrom lo m = true) :
    Memory.wfFrom lo' m = true := by
  cases m with
  | nil => rfl
  | cons c m =>
    simp only [Memory.wfFrom, Bool.and_eq_true, decide_eq_true_eq] at hm ⊢
    exact ⟨⟨⟨by omega, hm.1.1.2⟩, hm.1.2⟩, hm.2⟩

theorem wfFrom_listed {lo a : Nat} (v : Byte) {m : Memory} (hlo : lo ≤ a) (ha : a < Config.memSize)
    (hm : Memory.wfFrom (a + 1) m = true) : Memory.wfFrom lo (Memory.listed a v m) = true := by
  unfold Memory.listed
  split
  · exact wfFrom_mono (by omega) hm
  · simp_all [Memory.wfFrom]

theorem wfFrom_put {lo a : Nat} (v : Byte) {m : Memory} (hlo : lo ≤ a) (ha : a < Config.memSize)
    (hm : Memory.wfFrom lo m = true) : Memory.wfFrom lo (Memory.put m a v) = true := by
  induction m generalizing lo with
  | nil => exact wfFrom_listed v hlo ha rfl
  | cons d m ih =>
    obtain ⟨k, w⟩ := d
    have hd := hm
    simp only [Memory.wfFrom, Bool.and_eq_true, decide_eq_true_eq] at hd
    simp only [Memory.put]
    split
    · rename_i hlt
      refine wfFrom_listed v hlo ha ?_
      simp only [Memory.wfFrom, Bool.and_eq_true, decide_eq_true_eq]
      exact ⟨⟨⟨hlt, hd.1.1.2⟩, hd.1.2⟩, hd.2⟩
    · split
      · rename_i hk
        subst hk
        exact wfFrom_listed v hlo ha hd.2
      · simp only [Memory.wfFrom, Bool.and_eq_true, decide_eq_true_eq]
        exact ⟨hd.1, ih (by omega) hd.2⟩

/-- A store inside the array keeps the canonical form. -/
theorem put_keeps_wf {a : Nat} (v : Byte) {m : Memory} (ha : a < Config.memSize) (hm : Memory.wf m = true) :
    Memory.wf (Memory.put m a v) = true :=
  wfFrom_put v (Nat.zero_le a) ha hm

/-- Storing a list of bytes keeps the canonical form, wherever it starts. -/
theorem putBytes_keeps_wf (bs : List Byte) {m : Memory} (a : Nat) (hm : Memory.wf m = true) :
    Memory.wf (Memory.putBytes m a bs) = true := by
  induction bs generalizing m a with
  | nil => exact hm
  | cons v bs ih =>
    simp only [Memory.putBytes]
    split
    · exact ih _ (put_keeps_wf v ‹_› hm)
    · exact ih _ hm

/-- In canonical form a memory is determined by what its addresses read as. -/
theorem wfFrom_ext {lo : Nat} {m n : Memory} (hm : Memory.wfFrom lo m = true) (hn : Memory.wfFrom lo n = true)
    (h : ∀ a, Memory.byteAt m a = Memory.byteAt n a) : m = n := by
  induction m generalizing lo n with
  | nil =>
    cases n with
    | nil => rfl
    | cons d n =>
      obtain ⟨k, w⟩ := d
      simp only [Memory.wfFrom, Bool.and_eq_true, decide_eq_true_eq] at hn
      have := h k
      simp [Memory.byteAt] at this
      exact absurd this.symm hn.1.2
  | cons c m ih =>
    obtain ⟨j, u⟩ := c
    simp only [Memory.wfFrom, Bool.and_eq_true, decide_eq_true_eq] at hm
    cases n with
    | nil =>
      have := h j
      simp [Memory.byteAt] at this
      exact absurd this hm.1.2
    | cons d n =>
      obtain ⟨k, w⟩ := d
      simp only [Memory.wfFrom, Bool.and_eq_true, decide_eq_true_eq] at hn
      have hjk : j = k := by
        rcases Nat.lt_trichotomy j k with hlt | heq | hgt
        · have hj := h j
          simp only [Memory.byteAt, if_true, Nat.ne_of_gt hlt, if_false] at hj
          exact absurd (hj.trans (byteAt_below hn.2 (by omega))) hm.1.2
        · exact heq
        · have hk := h k
          simp only [Memory.byteAt, if_true, Nat.ne_of_gt hgt, if_false] at hk
          exact absurd (hk.symm.trans (byteAt_below hm.2 (by omega))) hn.1.2
      subst hjk
      have huw : u = w := by simpa [Memory.byteAt] using h j
      subst huw
      congr 1
      refine ih hm.2 hn.2 fun a => ?_
      by_cases ha : j = a
      · subst ha
        rw [byteAt_below hm.2 (by omega), byteAt_below hn.2 (by omega)]
      · simpa [Memory.byteAt, ha] using h a

/-- Equal memories are equal data. -/
theorem wf_ext {m n : Memory} (hm : Memory.wf m = true) (hn : Memory.wf n = true)
    (h : ∀ a, Memory.byteAt m a = Memory.byteAt n a) : m = n :=
  wfFrom_ext hm hn h

/-- What a stored list of bytes reads as inside the array. -/
theorem byteAt_putBytes_inside (bs : List Byte) {m : Memory} {a k : Nat} (hm : Memory.wf m = true)
    (hk : k < bs.length) (ha : a + k < Config.memSize) :
    Memory.byteAt (Memory.putBytes m a bs) (a + k) = bs[k] := by
  induction bs generalizing m a k with
  | nil => simp at hk
  | cons v bs ih =>
    have h0 : a < Config.memSize := by omega
    simp only [Memory.putBytes, h0, if_true]
    cases k with
    | zero =>
      have keep : ∀ (cs : List Byte) (m : Memory) (b : Nat), a < b →
          Memory.byteAt (Memory.putBytes m b cs) a = Memory.byteAt m a := by
        intro cs
        induction cs with
        | nil => intros; rfl
        | cons u cs ihc =>
          intro m b hb
          simp only [Memory.putBytes]
          rw [ihc _ _ (by omega)]
          split
          · exact byteAt_put_other u m (by omega)
          · rfl
      simpa [keep bs _ (a + 1) (by omega)] using byteAt_put_same v hm
    | succ k =>
      have := ih (m := Memory.put m a v) (a := a + 1) (k := k) (put_keeps_wf v h0 hm)
        (by simpa using hk) (by omega)
      simpa [Nat.add_assoc, Nat.add_comm 1 k] using this

/-- A stored list of bytes leaves every address outside it alone. -/
theorem byteAt_putBytes_outside (bs : List Byte) {m : Memory} {a c : Nat}
    (h : c < a ∨ a + bs.length ≤ c) : Memory.byteAt (Memory.putBytes m a bs) c = Memory.byteAt m c := by
  induction bs generalizing m a with
  | nil => rfl
  | cons v bs ih =>
    simp only [List.length_cons] at h
    simp only [Memory.putBytes]
    rw [ih (by omega)]
    split
    · exact byteAt_put_other v m (by omega)
    · rfl

end Sys2Proof.Machine
end

