-- ==== Sys2Proof/Laws/State.lean ====
section
/-! SUPPORT. One lemma per field per update of `State`, and what a register and a cell read as after one. -/

namespace Sys2Proof.Machine

variable (s : State) (i j : Fin Config.numRegs) (v ir : Byte) (t : Word) (r : RunState) (h : HaltReason) (a c : Nat)

@[simp] theorem setReg_mem : (s.setReg i v).mem = s.mem := rfl
@[simp] theorem setReg_pc : (s.setReg i v).pc = s.pc := rfl
@[simp] theorem setReg_fl : (s.setReg i v).fl = s.fl := rfl
@[simp] theorem setReg_run : (s.setReg i v).run = s.run := rfl
@[simp] theorem setReg_out : (s.setReg i v).out = s.out := rfl
@[simp] theorem setReg_x : (s.setReg i v).x = s.x.set i.val v := rfl

@[simp] theorem setSp_mem : (s.setSp v).mem = s.mem := rfl
@[simp] theorem setSp_pc : (s.setSp v).pc = s.pc := rfl
@[simp] theorem setSp_fl : (s.setSp v).fl = s.fl := rfl
@[simp] theorem setSp_run : (s.setSp v).run = s.run := rfl
@[simp] theorem setSp_out : (s.setSp v).out = s.out := rfl
@[simp] theorem setSp_x : (s.setSp v).x = s.x.set 7 v := rfl

@[simp] theorem setPc_mem : (s.setPc t).mem = s.mem := rfl
@[simp] theorem setPc_x : (s.setPc t).x = s.x := rfl
@[simp] theorem setPc_pc : (s.setPc t).pc = t := rfl
@[simp] theorem setPc_fl : (s.setPc t).fl = s.fl := rfl
@[simp] theorem setPc_run : (s.setPc t).run = s.run := rfl
@[simp] theorem setPc_out : (s.setPc t).out = s.out := rfl

@[simp] theorem setFl_mem : (s.setFl v).mem = s.mem := rfl
@[simp] theorem setFl_x : (s.setFl v).x = s.x := rfl
@[simp] theorem setFl_pc : (s.setFl v).pc = s.pc := rfl
@[simp] theorem setFl_fl : (s.setFl v).fl = v := rfl
@[simp] theorem setFl_run : (s.setFl v).run = s.run := rfl
@[simp] theorem setFl_out : (s.setFl v).out = s.out := rfl

@[simp] theorem setRun_mem : (s.setRun r).mem = s.mem := rfl
@[simp] theorem setRun_x : (s.setRun r).x = s.x := rfl
@[simp] theorem setRun_pc : (s.setRun r).pc = s.pc := rfl
@[simp] theorem setRun_fl : (s.setRun r).fl = s.fl := rfl
@[simp] theorem setRun_run : (s.setRun r).run = r := rfl
@[simp] theorem setRun_out : (s.setRun r).out = s.out := rfl

@[simp] theorem halt_mem : (s.halt h).mem = s.mem := rfl
@[simp] theorem halt_x : (s.halt h).x = s.x := rfl
@[simp] theorem halt_pc : (s.halt h).pc = s.pc := rfl
@[simp] theorem halt_fl : (s.halt h).fl = s.fl := rfl
@[simp] theorem halt_run : (s.halt h).run = .halted h := rfl
@[simp] theorem halt_out : (s.halt h).out = s.out := rfl

@[simp] theorem emit_mem : (s.emit v).mem = s.mem := rfl
@[simp] theorem emit_x : (s.emit v).x = s.x := rfl
@[simp] theorem emit_pc : (s.emit v).pc = s.pc := rfl
@[simp] theorem emit_fl : (s.emit v).fl = s.fl := rfl
@[simp] theorem emit_run : (s.emit v).run = s.run := rfl
@[simp] theorem emit_out : (s.emit v).out = s.out ++ [v] := rfl

@[simp] theorem setCell_mem : (s.setCell a v).mem = s.mem.put a v := rfl
@[simp] theorem setCell_x : (s.setCell a v).x = s.x := rfl
@[simp] theorem setCell_pc : (s.setCell a v).pc = s.pc := rfl
@[simp] theorem setCell_fl : (s.setCell a v).fl = s.fl := rfl
@[simp] theorem setCell_run : (s.setCell a v).run = s.run := rfl
@[simp] theorem setCell_out : (s.setCell a v).out = s.out := rfl

@[simp] theorem advance_mem : (s.advance ir).mem = s.mem := rfl
@[simp] theorem advance_x : (s.advance ir).x = s.x := rfl
@[simp] theorem advance_pc : (s.advance ir).pc = s.pc + advanceAmount ir := rfl
@[simp] theorem advance_fl : (s.advance ir).fl = s.fl := rfl
@[simp] theorem advance_run : (s.advance ir).run = s.run := rfl
@[simp] theorem advance_out : (s.advance ir).out = s.out := rfl

/-! ## Registers -/

theorem reg_of_x {s u : State} (hx : u.x = s.x) (j : Fin Config.numRegs) : u.reg j = s.reg j := by
  simp [State.reg, hx]

@[simp] theorem reg_setReg_same : (s.setReg i v).reg i = v := by simp [State.reg]

theorem reg_setReg_other {i j : Fin Config.numRegs} (hij : j ≠ i) : (s.setReg i v).reg j = s.reg j := by
  have : i.val ≠ j.val := fun e => hij (Fin.ext e.symm)
  simp [State.reg, this]

@[simp] theorem reg_setSp_sp : (s.setSp v).reg Config.spIndex = v := reg_setReg_same s _ v

@[simp] theorem sp_setSp : (s.setSp v).sp = v := reg_setSp_sp s v

theorem reg_setSp_other {j : Fin Config.numRegs} (hj : j ≠ Config.spIndex) : (s.setSp v).reg j = s.reg j :=
  reg_setReg_other s v hj

@[simp] theorem reg_setPc : (s.setPc t).reg j = s.reg j := rfl
@[simp] theorem reg_setFl : (s.setFl v).reg j = s.reg j := rfl
@[simp] theorem reg_setRun : (s.setRun r).reg j = s.reg j := rfl
@[simp] theorem reg_halt : (s.halt h).reg j = s.reg j := rfl
@[simp] theorem reg_emit : (s.emit v).reg j = s.reg j := rfl
@[simp] theorem reg_setCell : (s.setCell a v).reg j = s.reg j := rfl
@[simp] theorem reg_advance : (s.advance ir).reg j = s.reg j := rfl

/-! ## Cells -/

theorem loadByte_of_mem {s u : State} (hm : u.mem = s.mem) (a : Nat) : u.loadByte a = s.loadByte a := by
  simp [State.loadByte, hm]

@[simp] theorem loadByte_setReg : (s.setReg i v).loadByte a = s.loadByte a := rfl
@[simp] theorem loadByte_setSp : (s.setSp v).loadByte a = s.loadByte a := rfl
@[simp] theorem loadByte_setPc : (s.setPc t).loadByte a = s.loadByte a := rfl
@[simp] theorem loadByte_setFl : (s.setFl v).loadByte a = s.loadByte a := rfl
@[simp] theorem loadByte_setRun : (s.setRun r).loadByte a = s.loadByte a := rfl
@[simp] theorem loadByte_halt : (s.halt h).loadByte a = s.loadByte a := rfl
@[simp] theorem loadByte_emit : (s.emit v).loadByte a = s.loadByte a := rfl
@[simp] theorem loadByte_advance : (s.advance ir).loadByte a = s.loadByte a := rfl

theorem loadByte_setCell_other {a c : Nat} (hc : c ≠ a) : (s.setCell a v).loadByte c = s.loadByte c := by
  simp [State.loadByte, byteAt_put_other v s.mem hc]

theorem loadByte_setCell_same {s : State} {a : Nat} (v : Byte) (hm : s.mem.wf = true) (ha : a < Config.memSize) :
    (s.setCell a v).loadByte a = some v := by
  have h := byteAt_put_same (a := a) v hm
  simp only [State.loadByte, ha, if_true, setCell_mem, h]

@[simp] theorem loadByte_byte (b : Byte) : s.loadByte b.toNat = some (s.mem.byteAt b.toNat) := by
  have := b.isLt
  simp only [State.loadByte, Config.memSize]
  rw [if_pos (by omega)]

/-- The machine after reset lists no cell. -/
theorem reset_mem_wf : State.reset.mem.wf = true := rfl

/-- The image load changes nothing but memory. -/
theorem loadImage_ok {image : List Byte} {s u : State} (hl : loadImage image s = .ok u) :
    image.length ≤ Config.memSize ∧ u = { s with mem := s.mem.putBytes 0 image } := by
  unfold loadImage at hl
  split at hl
  · exact ⟨‹_›, by injection hl with hl; exact hl.symm⟩
  · cases hl

end Sys2Proof.Machine
end

