-- ==== Sys2Proof/Laws/Ops.lean ====
section
/-! SUPPORT. One lemma per shared operation that says once everything it can do, and the two cases of each
primitive that may raise. -/

namespace Sys2Proof.Machine

/-! ## Operands -/

theorem regOperand_some {b : Byte} (hb : b.toNat < 8) : regOperand b = some ⟨b.toNat, hb⟩ := by
  simp [regOperand, hb]

theorem regOperand_none {b : Byte} (hb : 8 ≤ b.toNat) : regOperand b = none := by
  simp [regOperand, hb]

theorem spIncrement_some {sp : Byte} (h : sp ≠ Config.spMax) : spIncrement sp = some (sp + 1#8) := by
  simp [spIncrement, h]

theorem spIncrement_none : spIncrement Config.spMax = none := rfl

/-! ## The amounts of the generic advancement (R20) -/

theorem advanceAmount_eq (ir : Byte) : advanceAmount ir = BitVec.ofNat 16 (ir.toNat / 64 + 1) := by
  apply BitVec.eq_of_toNat_eq
  have := ir.isLt
  simp [advanceAmount, zext16, BitVec.toNat_ushiftRight, Nat.shiftRight_eq_div_pow]
  omega

@[simp] theorem advance_by_fields (n : BitVec 2) (id : BitVec 6) :
    advanceAmount (Opcode.fromFields n id) = BitVec.ofNat 16 (n.toNat + 1) := by
  revert n id
  decide

@[simp] theorem advance_hlt : advanceAmount Opcode.hlt = 1#16 := rfl
@[simp] theorem advance_ret : advanceAmount Opcode.ret = 1#16 := rfl
@[simp] theorem advance_prn : advanceAmount Opcode.prn = 2#16 := rfl
@[simp] theorem advance_push : advanceAmount Opcode.push = 2#16 := rfl
@[simp] theorem advance_pop : advanceAmount Opcode.pop = 2#16 := rfl
@[simp] theorem advance_ldi : advanceAmount Opcode.ldi = 3#16 := rfl
@[simp] theorem advance_mul : advanceAmount Opcode.mul = 3#16 := rfl
@[simp] theorem advance_add : advanceAmount Opcode.add = 3#16 := rfl

/-! ## The primitives, case by case -/

theorem readReg_named {b : Byte} (hb : b.toNat < 8) (s : State) (rest : Byte → Result) :
    readReg b s rest = rest (s.reg ⟨b.toNat, hb⟩) := by
  simp [readReg, regOperand_some hb]

theorem readReg_unnamed {b : Byte} (hb : 8 ≤ b.toNat) (s : State) (rest : Byte → Result) :
    readReg b s rest = raise (.regIndexFault b) s := by
  simp [readReg, regOperand_none hb]

theorem writeReg_named {b : Byte} (hb : b.toNat < 8) (v : Byte) (s : State) (rest : State → Result) :
    writeReg b v s rest = rest (s.setReg ⟨b.toNat, hb⟩ v) := by
  simp [writeReg, regOperand_some hb]

theorem writeReg_unnamed {b : Byte} (hb : 8 ≤ b.toNat) (v : Byte) (s : State) (rest : State → Result) :
    writeReg b v s rest = raise (.regIndexFault b) s := by
  simp [writeReg, regOperand_none hb]

theorem memRead_inside {a : Nat} (ha : a < Config.memSize) (s : State) (rest : Byte → Result) :
    memRead a s rest = rest (s.mem.byteAt a) := by
  simp only [memRead, State.loadByte, ha, if_true]

theorem memRead_outside {a : Nat} (ha : Config.memSize ≤ a) (s : State) (rest : Byte → Result) :
    memRead a s rest = raise (.memRangeFault a) s := by
  simp only [memRead, State.loadByte, Nat.not_lt.mpr ha, if_false]

/-- A read at a byte address cannot be out of range (R31). -/
@[simp] theorem memRead_byte (b : Byte) (s : State) (rest : Byte → Result) :
    memRead b.toNat s rest = rest (s.mem.byteAt b.toNat) :=
  memRead_inside (a := b.toNat) b.isLt s rest

/-- A write at a byte address cannot be out of range (R31). -/
@[simp] theorem memWrite_byte (b v : Byte) (s : State) (rest : State → Result) :
    memWrite b.toNat v s rest = rest (s.setCell b.toNat v) := by
  have h : b.toNat < Config.memSize := b.isLt
  simp only [memWrite, h, if_true]

theorem writeSpIncremented_fits {sp : Byte} (h : sp ≠ Config.spMax) (s : State) (rest : State → Result) :
    writeSpIncremented sp s rest = rest (s.setSp (sp + 1#8)) := by
  simp [writeSpIncremented, spIncrement_some h]

theorem writeSpIncremented_overflow (s : State) (rest : State → Result) :
    writeSpIncremented Config.spMax s rest = raise (.spIncrementOverflow Config.spMax) s := rfl

/-! ## What an answer of an operation means -/

@[simp] theorem raise_next {c : FaultCause} {s t : State} :
    raise c s = .next t ↔ t = s.setRun (.faulted c) := by
  simp [raise, eq_comm]

@[simp] theorem finish_next {ir : Byte} {s t : State} : finish ir s = .next t ↔ t = s.advance ir := by
  simp [finish, eq_comm]

theorem readReg_cases {b : Byte} {s t : State} {rest : Byte → Result} (h : readReg b s rest = .next t) :
    (∃ hb : b.toNat < 8, rest (s.reg ⟨b.toNat, hb⟩) = .next t) ∨
    (8 ≤ b.toNat ∧ t = s.setRun (.faulted (.regIndexFault b))) := by
  by_cases hb : b.toNat < 8
  · exact .inl ⟨hb, by rwa [readReg_named hb] at h⟩
  · rw [readReg_unnamed (by omega)] at h
    exact .inr ⟨by omega, raise_next.mp h⟩

theorem writeReg_cases {b v : Byte} {s t : State} {rest : State → Result} (h : writeReg b v s rest = .next t) :
    (∃ hb : b.toNat < 8, rest (s.setReg ⟨b.toNat, hb⟩ v) = .next t) ∨
    (8 ≤ b.toNat ∧ t = s.setRun (.faulted (.regIndexFault b))) := by
  by_cases hb : b.toNat < 8
  · exact .inl ⟨hb, by rwa [writeReg_named hb] at h⟩
  · rw [writeReg_unnamed (by omega)] at h
    exact .inr ⟨by omega, raise_next.mp h⟩

theorem writeSpIncremented_cases {sp : Byte} {s t : State} {rest : State → Result}
    (h : writeSpIncremented sp s rest = .next t) :
    (sp ≠ Config.spMax ∧ rest (s.setSp (sp + 1#8)) = .next t) ∨
    (sp = Config.spMax ∧ t = s.setRun (.faulted (.spIncrementOverflow sp))) := by
  by_cases hs : sp = Config.spMax
  · subst hs
    exact .inr ⟨rfl, raise_next.mp h⟩
  · exact .inl ⟨hs, by rwa [writeSpIncremented_fits hs] at h⟩

/-! ## The cycle's operations -/

/-- The fetch below 254 hands on the three bytes at the program counter. -/
theorem fetch_executes {s : State} (h : s.pc.toNat ≤ lastFetchable) (rest : Byte → Byte → Byte → Result) :
    fetch s rest = rest (s.mem.byteAt s.pc.toNat) (s.mem.byteAt (s.pc.toNat + 1)) (s.mem.byteAt (s.pc.toNat + 2)) := by
  simp only [lastFetchable, Config.memSize] at h
  rw [fetch, memRead_inside (by simp only [Config.memSize]; omega), memRead_inside (by simp only [Config.memSize]; omega),
    memRead_inside (by simp only [Config.memSize]; omega)]

/-- The fetch at 254 or 255 raises, whatever lies there (R111). -/
theorem fetch_raises {s : State} (h1 : lastFetchable < s.pc.toNat) (h2 : s.pc.toNat < Config.memSize)
    (rest : Byte → Byte → Byte → Result) : fetch s rest = raise (.memRangeFault 256) s := by
  simp only [lastFetchable, Config.memSize] at h1 h2
  rw [fetch, memRead_inside (by simp only [Config.memSize]; omega)]
  rcases (by omega : s.pc.toNat = 254 ∨ s.pc.toNat = 255) with h | h
  · rw [h, memRead_inside (by simp only [Config.memSize]; omega), memRead_outside (by simp only [Config.memSize]; omega)]
  · rw [h, memRead_outside (by simp only [Config.memSize]; omega)]

/-- `MUL`, `ADD` and the ALU helper's ADD: both indexes checked in the order a, b, then the write. -/
theorem regRegOp_named {f : Byte → Byte → Byte} {a b : Byte} (ha : a.toNat < 8) (hb : b.toNat < 8) (s : State)
    (rest : State → Result) :
    regRegOp f a b s rest = rest (s.setReg ⟨a.toNat, ha⟩ (f (s.reg ⟨a.toNat, ha⟩) (s.reg ⟨b.toNat, hb⟩))) := by
  simp [regRegOp, readReg_named, writeReg_named, ha, hb]

theorem regRegOp_cases {f : Byte → Byte → Byte} {a b : Byte} {s t : State} {rest : State → Result}
    (h : regRegOp f a b s rest = .next t) :
    (∃ (ha : a.toNat < 8) (hb : b.toNat < 8),
      rest (s.setReg ⟨a.toNat, ha⟩ (f (s.reg ⟨a.toNat, ha⟩) (s.reg ⟨b.toNat, hb⟩))) = .next t) ∨
    (8 ≤ a.toNat ∧ t = s.setRun (.faulted (.regIndexFault a))) ∨
    (8 ≤ b.toNat ∧ t = s.setRun (.faulted (.regIndexFault b))) := by
  rcases readReg_cases h with ⟨ha, h⟩ | h
  · rcases readReg_cases h with ⟨hb, h⟩ | h
    · rw [writeReg_named ha] at h
      exact .inl ⟨ha, hb, h⟩
    · exact .inr (.inr h)
  · exact .inr (.inl h)

/-! ## The run-state test -/

theorem whenRunning_running {s : State} (h : s.run = .running) (cycle : Result) : whenRunning s cycle = cycle := by
  simp only [whenRunning, h]

/-- A stopped machine answers the same whatever was to run. -/
theorem whenRunning_stopped {s : State} (h : s.run ≠ .running) (cycle other : Result) :
    whenRunning s cycle = whenRunning s other := by
  unfold whenRunning
  split
  · exact absurd ‹_› h
  · rfl
  · rfl

/-- Only a Running machine answers a next state, and then the cycle's. -/
theorem whenRunning_next {s t : State} {cycle : Result} :
    whenRunning s cycle = .next t ↔ s.run = .running ∧ cycle = .next t := by
  unfold whenRunning
  split <;> simp_all

/-! ## The ALU helper -/

theorem aluInvoke_running {s : State} (h : s.run = .running) (select : AluSelect) (p q : Byte) :
    aluInvoke select p q s = aluOperation select p q s := whenRunning_running h _

/-- Every operation of the helper answers a next state. -/
theorem aluOperation_completes (select : AluSelect) (p q : Byte) (s : State) :
    ∃ t : State, aluOperation select p q s = .next t := by
  cases select with
  | cmp => exact ⟨_, rfl⟩
  | other n => exact ⟨_, rfl⟩
  | add =>
    simp only [aluOperation, aluAdd, regRegOp]
    by_cases hp : p.toNat < 8
    · rw [readReg_named hp]
      by_cases hq : q.toNat < 8
      · rw [readReg_named hq, writeReg_named hp]; exact ⟨_, rfl⟩
      · rw [readReg_unnamed (by omega)]; exact ⟨_, rfl⟩
    · rw [readReg_unnamed (by omega)]; exact ⟨_, rfl⟩

end Sys2Proof.Machine
end

