-- ==== Sys2Proof/Laws/Exec.lean ====
section
/-! SUPPORT. What each meaning can do, said once: its one outcome, or its outcomes by operand. Later proofs cite
these and do not unfold a meaning. -/

namespace Sys2Proof.Machine

/-- Register `b` named by an operand byte in range. -/
def named (b : Byte) (h : b.toNat < 8) : Fin Config.numRegs := ⟨b.toNat, h⟩

theorem execLdi_cases {a b : Byte} {s t : State} (h : execLdi a b s = .next t) :
    (∃ ha : a.toNat < 8, t = (s.setReg (named a ha) b).advance Opcode.ldi) ∨
    (8 ≤ a.toNat ∧ t = s.setRun (.faulted (.regIndexFault a))) := by
  rcases writeReg_cases h with ⟨ha, h⟩ | h
  · exact .inl ⟨ha, finish_next.mp h⟩
  · exact .inr h

theorem execPrn_cases {a : Byte} {s t : State} (h : execPrn a s = .next t) :
    (∃ ha : a.toNat < 8, t = (s.emit (s.reg (named a ha))).advance Opcode.prn) ∨
    (8 ≤ a.toNat ∧ t = s.setRun (.faulted (.regIndexFault a))) := by
  rcases readReg_cases h with ⟨ha, h⟩ | h
  · exact .inl ⟨ha, finish_next.mp h⟩
  · exact .inr h

theorem execMul_cases {a b : Byte} {s t : State} (h : execMul a b s = .next t) :
    (∃ (ha : a.toNat < 8) (hb : b.toNat < 8),
      t = (s.setReg (named a ha) (mulBytes (s.reg (named a ha)) (s.reg (named b hb)))).advance Opcode.mul) ∨
    (8 ≤ a.toNat ∧ t = s.setRun (.faulted (.regIndexFault a))) ∨
    (8 ≤ b.toNat ∧ t = s.setRun (.faulted (.regIndexFault b))) := by
  rcases regRegOp_cases h with ⟨ha, hb, h⟩ | h
  · exact .inl ⟨ha, hb, finish_next.mp h⟩
  · exact .inr h

theorem execAdd_cases {a b : Byte} {s t : State} (h : execAdd a b s = .next t) :
    (∃ (ha : a.toNat < 8) (hb : b.toNat < 8),
      t = (s.setReg (named a ha) (addBytes (s.reg (named a ha)) (s.reg (named b hb)))).advance Opcode.add) ∨
    (8 ≤ a.toNat ∧ t = s.setRun (.faulted (.regIndexFault a))) ∨
    (8 ≤ b.toNat ∧ t = s.setRun (.faulted (.regIndexFault b))) := by
  rcases regRegOp_cases h with ⟨ha, hb, h⟩ | h
  · exact .inl ⟨ha, hb, finish_next.mp h⟩
  · exact .inr h

theorem execPush_cases {a : Byte} {s t : State} (h : execPush a s = .next t) :
    (∃ ha : a.toNat < 8, t =
      ((s.setCell (spDecrement s.sp).toNat (s.reg (named a ha))).setSp (spDecrement s.sp)).advance Opcode.push) ∨
    (8 ≤ a.toNat ∧ t = s.setRun (.faulted (.regIndexFault a))) := by
  simp only [execPush, memWrite_byte] at h
  rcases readReg_cases h with ⟨ha, h⟩ | h
  · exact .inl ⟨ha, finish_next.mp h⟩
  · exact .inr h

theorem execPop_cases {a : Byte} {s t : State} (h : execPop a s = .next t) :
    (∃ ha : a.toNat < 8, s.sp ≠ Config.spMax ∧ t =
      ((s.setReg (named a ha) (s.mem.byteAt s.sp.toNat)).setSp (s.sp + 1#8)).advance Opcode.pop) ∨
    (∃ ha : a.toNat < 8, s.sp = Config.spMax ∧ t =
      (s.setReg (named a ha) (s.mem.byteAt s.sp.toNat)).setRun (.faulted (.spIncrementOverflow s.sp))) ∨
    (8 ≤ a.toNat ∧ t = s.setRun (.faulted (.regIndexFault a))) := by
  simp only [execPop, memRead_byte] at h
  rcases writeReg_cases h with ⟨ha, h⟩ | h
  · rcases writeSpIncremented_cases h with ⟨hs, h⟩ | ⟨hs, h⟩
    · exact .inl ⟨ha, hs, finish_next.mp h⟩
    · exact .inr (.inl ⟨ha, hs, h⟩)
  · exact .inr (.inr h)

/-- CALL after its stack write, the state in which the target register is read. -/
theorem execCall_cases {a : Byte} {s t : State} (h : execCall a s = .next t) :
    (∃ ha : a.toNat < 8, t =
      ((s.setCell (spDecrement s.sp).toNat (returnByte s.pc)).setSp (spDecrement s.sp)).setPc
        (zext16 ((s.setSp (spDecrement s.sp)).reg (named a ha)))) ∨
    (8 ≤ a.toNat ∧ t =
      ((s.setCell (spDecrement s.sp).toNat (returnByte s.pc)).setSp (spDecrement s.sp)).setRun
        (.faulted (.regIndexFault a))) := by
  simp only [execCall, memWrite_byte] at h
  rcases readReg_cases h with ⟨ha, h⟩ | h
  · injection h with h
    exact .inl ⟨ha, h.symm⟩
  · exact .inr h

theorem execRet_cases {s t : State} (h : execRet s = .next t) :
    (s.sp ≠ Config.spMax ∧ t =
      ((s.setPc (zext16 (s.mem.byteAt s.sp.toNat))).setSp (s.sp + 1#8)).advance Opcode.ret) ∨
    (s.sp = Config.spMax ∧ t =
      (s.setPc (zext16 (s.mem.byteAt s.sp.toNat))).setRun (.faulted (.spIncrementOverflow s.sp))) := by
  simp only [execRet, memRead_byte] at h
  rcases writeSpIncremented_cases h with ⟨hs, h⟩ | ⟨hs, h⟩
  · exact .inl ⟨hs, finish_next.mp h⟩
  · exact .inr ⟨hs, h⟩

end Sys2Proof.Machine
end

