-- ==== Sys2Proof/Laws/Loader.lean ====
section
/-! SUPPORT. What a line's comment, its surrounding white space and an empty remainder mean to the loader
(70_reset_and_hazards.md R133). -/

namespace Sys2Proof.Machine

/-- Every character of `w` is white space (the set is log 12). -/
def Blank (w : List Char) : Prop := ∀ d ∈ w, Char.isWhitespace d = true

theorem blank_of_mem {w : List Char} (h : ∀ d ∈ w, d ∈ [' ', '\t', '\r', '\n']) : Blank w := by
  intro d hd
  have := h d hd
  simp only [List.mem_cons, List.not_mem_nil, or_false] at this
  obtain rfl | rfl | rfl | rfl := this <;> rfl

theorem Blank.no_hash {w : List Char} (h : Blank w) : '#' ∉ w := fun hm => absurd (h _ hm) (by decide)

/-! ## Comments -/

theorem stripComment_hash (l c : List Char) : stripComment (l ++ '#' :: c) = stripComment l := by
  induction l with
  | nil => rfl
  | cons d ds ih => simp [stripComment, ih]

/-- Up to its first `#` a line is kept. -/
theorem stripComment_append {l : List Char} (h : '#' ∉ l) (m : List Char) :
    stripComment (l ++ m) = l ++ stripComment m := by
  induction l with
  | nil => rfl
  | cons d ds ih =>
    simp only [List.mem_cons, not_or] at h
    simp [stripComment, Ne.symm h.1, ih h.2]

theorem stripComment_of_no_hash {l : List Char} (h : '#' ∉ l) : stripComment l = l := by
  simpa [stripComment] using stripComment_append h []

/-- What stands behind a `#` plays no part. -/
theorem stripComment_append_of_hash {l : List Char} (h : '#' ∈ l) (m : List Char) :
    stripComment (l ++ m) = stripComment l := by
  obtain ⟨p, q, rfl⟩ := List.append_of_mem h
  rw [List.append_assoc, List.cons_append, stripComment_hash, stripComment_hash]

/-! ## White space -/

theorem dropWhile_blank {w : List Char} (h : Blank w) : w.dropWhile Char.isWhitespace = [] :=
  List.dropWhile_eq_nil_iff.mpr h

theorem stripSpace_blank_append {w : List Char} (h : Blank w) (l : List Char) :
    stripSpace (w ++ l) = stripSpace l := by
  simp [stripSpace, List.dropWhile_append, dropWhile_blank h]

theorem stripSpace_append_blank {w : List Char} (h : Blank w) (l : List Char) :
    stripSpace (l ++ w) = stripSpace l := by
  have hr : Blank w.reverse := fun d hd => h d (List.mem_reverse.mp hd)
  rw [stripSpace, stripSpace, List.dropWhile_append]
  split
  · rename_i he
    rw [List.isEmpty_iff.mp he, dropWhile_blank h]
  · rw [List.reverse_append, List.dropWhile_append, dropWhile_blank hr]
    rfl

/-! ## Lines -/

theorem meaningfulPart_comment (l c : List Char) : meaningfulPart (l ++ '#' :: c) = meaningfulPart l := by
  simp only [meaningfulPart, stripComment_hash]

theorem meaningfulPart_surround {w₁ w₂ : List Char} (h₁ : Blank w₁) (h₂ : Blank w₂) (l : List Char) :
    meaningfulPart (w₁ ++ l ++ w₂) = meaningfulPart l := by
  rw [meaningfulPart, meaningfulPart, List.append_assoc, stripComment_append h₁.no_hash, stripSpace_blank_append h₁]
  by_cases h : '#' ∈ l
  · rw [stripComment_append_of_hash h]
  · rw [stripComment_append h, stripComment_of_no_hash h, stripComment_of_no_hash h₂.no_hash, stripSpace_append_blank h₂]

theorem meaningfulPart_blank {w : List Char} (h : Blank w) : meaningfulPart w = [] := by
  rw [meaningfulPart, stripComment_of_no_hash h.no_hash, stripSpace, dropWhile_blank h]
  rfl

/-- Of a line only its meaningful part matters. -/
theorem bytesOfLines_congr {l m : List Char} (h : meaningfulPart l = meaningfulPart m) (pre post : List (List Char)) :
    bytesOfLines (pre ++ l :: post) = bytesOfLines (pre ++ m :: post) := by
  induction pre with
  | nil => simp only [List.nil_append, bytesOfLines, h]
  | cons p ps ih => simp only [List.cons_append, bytesOfLines, ih]

theorem bytesOfLines_skip {l : List Char} (h : meaningfulPart l = []) (pre post : List (List Char)) :
    bytesOfLines (pre ++ l :: post) = bytesOfLines (pre ++ post) := by
  induction pre with
  | nil => simp only [List.nil_append, bytesOfLines, h]
  | cons p ps ih => simp only [List.cons_append, bytesOfLines, ih]

end Sys2Proof.Machine
end

