-- ==== Sys2Proof/Laws/PerInstr.lean ====
section
/-! SUPPORT. Per-instruction laws of the encoding. Family `EncodedLength`: an instruction's encoding is its opcode
byte and as many operand bytes as the opcode's top two bits say (30_encoding.md R50). -/

namespace Sys2Proof.Laws.EncodedLength

/-- The encoding has `opcode[7:6] + 1` bytes and begins with the opcode. -/
def Statement (i : Instr) : Prop :=
  (encode i).length = (Opcode.countField i.opcode).toNat + 1 ∧ (encode i).head? = some i.opcode

theorem hlt : Statement .hlt := ⟨by decide, rfl⟩
theorem ldi (a b : Byte) : Statement (.ldi a b) := by
  simp [Statement, encode, Instr.opcode, Instr.operandBytes, Opcode.countField]
theorem prn (a : Byte) : Statement (.prn a) := by
  simp [Statement, encode, Instr.opcode, Instr.operandBytes, Opcode.countField]
theorem mul (a b : Byte) : Statement (.mul a b) := by
  simp [Statement, encode, Instr.opcode, Instr.operandBytes, Opcode.countField]
theorem add (a b : Byte) : Statement (.add a b) := by
  simp [Statement, encode, Instr.opcode, Instr.operandBytes, Opcode.countField]
theorem push (a : Byte) : Statement (.push a) := by
  simp [Statement, encode, Instr.opcode, Instr.operandBytes, Opcode.countField]
theorem pop (a : Byte) : Statement (.pop a) := by
  simp [Statement, encode, Instr.opcode, Instr.operandBytes, Opcode.countField]
theorem call (a : Byte) : Statement (.call a) := by
  simp [Statement, encode, Instr.opcode, Instr.operandBytes, Opcode.countField]
theorem ret : Statement .ret := ⟨by decide, rfl⟩
theorem rsv54 (a : Byte) : Statement (.rsv54 a) := by
  simp [Statement, encode, Instr.opcode, Instr.operandBytes, Opcode.countField]
theorem rsv55 (a : Byte) : Statement (.rsv55 a) := by
  simp [Statement, encode, Instr.opcode, Instr.operandBytes, Opcode.countField]
theorem rsv56 (a : Byte) : Statement (.rsv56 a) := by
  simp [Statement, encode, Instr.opcode, Instr.operandBytes, Opcode.countField]
theorem nop1 (id : BitVec 6) : Statement (.nop1 id) := by
  simp [Statement, encode, Instr.opcode, Instr.operandBytes]
theorem nop2 (id : BitVec 6) (a : Byte) : Statement (.nop2 id a) := by
  simp [Statement, encode, Instr.opcode, Instr.operandBytes]
theorem nop3 (id : BitVec 6) (a b : Byte) : Statement (.nop3 id a b) := by
  simp [Statement, encode, Instr.opcode, Instr.operandBytes]
theorem nop4 (id : BitVec 6) (a b : Byte) : Statement (.nop4 id a b) := by
  simp [Statement, encode, Instr.opcode, Instr.operandBytes]

end Sys2Proof.Laws.EncodedLength
end

