-- ==== Sys2Proof/Laws/Step.lean ====
section
/-! SUPPORT. What one step can do: the three ranges of the program counter of a running machine (10_state.md
R15, R19, R21) and the stopped machine (R18). Later proofs cite these and do not unfold `step`. -/

namespace Sys2Proof.Machine

/-- A cycle at `pc <= 253` executes what it fetches. -/
theorem step_executes {s : State} (h : Executes s) :
    step s = exec (decode (opcodeAtPc s) (operandAtPc s) (s.mem.byteAt (s.pc.toNat + 2))) s := by
  obtain ⟨hr, hp⟩ := h
  have hp' := hp
  simp only [lastFetchable, Config.memSize] at hp'
  have : ¬ Config.memSize ≤ s.pc.toNat := by simp only [Config.memSize]; omega
  simp only [step, whenRunning, hr, softTerminate, this, if_false]
  rw [fetch_executes hp]
  rfl

theorem step_prefetch_raises {s : State} (hr : s.run = .running) (h1 : lastFetchable < s.pc.toNat)
    (h2 : s.pc.toNat < Config.memSize) : step s = .next (s.setRun (.faulted (.memRangeFault 256))) := by
  have : ¬ Config.memSize ≤ s.pc.toNat := by omega
  simp only [step, whenRunning, hr, softTerminate, this, if_false]
  exact fetch_raises h1 h2 _

theorem step_past_end {s : State} (hr : s.run = .running) (h : Config.memSize ≤ s.pc.toNat) :
    step s = .next (s.halt .endOfMemory) := by
  simp only [step, whenRunning, hr, softTerminate, h, if_true]

theorem step_halted {s : State} {r : HaltReason} (h : s.run = .halted r) : step s = .fault (.halted r) := by
  simp only [step, whenRunning, h]

theorem step_faulted {s : State} {c : FaultCause} (h : s.run = .faulted c) : step s = .fault (.faulted c) := by
  simp only [step, whenRunning, h]

/-- Everything a step that answers a next state can be. -/
theorem step_cases {s t : State} (h : step s = .next t) :
    s.run = .running ∧
    ((s.pc.toNat ≤ lastFetchable ∧
        exec (decode (opcodeAtPc s) (operandAtPc s) (s.mem.byteAt (s.pc.toNat + 2))) s = .next t) ∨
     (lastFetchable < s.pc.toNat ∧ s.pc.toNat < Config.memSize ∧ t = s.setRun (.faulted (.memRangeFault 256))) ∨
     (Config.memSize ≤ s.pc.toNat ∧ t = s.halt .endOfMemory)) := by
  cases hr : s.run with
  | halted r => rw [step_halted hr] at h; cases h
  | faulted c => rw [step_faulted hr] at h; cases h
  | running =>
    refine ⟨rfl, ?_⟩
    by_cases h1 : s.pc.toNat ≤ lastFetchable
    · rw [step_executes ⟨hr, h1⟩] at h
      exact .inl ⟨h1, h⟩
    · by_cases h2 : s.pc.toNat < Config.memSize
      · rw [step_prefetch_raises hr (by omega) h2] at h
        injection h with h
        exact .inr (.inl ⟨by omega, h2, h.symm⟩)
      · rw [step_past_end hr (by omega)] at h
        injection h with h
        exact .inr (.inr ⟨by omega, h.symm⟩)

/-- Every meaning answers a next state: no instruction is refused and none stops the model. -/
theorem exec_next (i : Instr) (s : State) : ∃ t, exec i s = .next t := by
  have hrd : ∀ b s (rest : Byte → Result), (∀ v, ∃ t, rest v = .next t) → ∃ t, readReg b s rest = .next t := by
    intro b s rest h
    unfold readReg
    split
    · exact h _
    · exact ⟨_, rfl⟩
  have hwr : ∀ b v s (rest : State → Result), (∀ u, ∃ t, rest u = .next t) → ∃ t, writeReg b v s rest = .next t := by
    intro b v s rest h
    unfold writeReg
    split
    · exact h _
    · exact ⟨_, rfl⟩
  have hsp : ∀ sp s (rest : State → Result), (∀ u, ∃ t, rest u = .next t) →
      ∃ t, writeSpIncremented sp s rest = .next t := by
    intro sp s rest h
    unfold writeSpIncremented
    split
    · exact h _
    · exact ⟨_, rfl⟩
  cases i with
  | hlt => exact ⟨_, rfl⟩
  | ldi a b =>
    rw [exec, execLdi]
    exact hwr _ _ _ _ fun _ => ⟨_, rfl⟩
  | prn a =>
    rw [exec, execPrn]
    exact hrd _ _ _ fun _ => ⟨_, rfl⟩
  | mul a b =>
    rw [exec, execMul, regRegOp]
    exact hrd _ _ _ fun _ => hrd _ _ _ fun _ => hwr _ _ _ _ fun _ => ⟨_, rfl⟩
  | add a b =>
    rw [exec, execAdd, regRegOp]
    exact hrd _ _ _ fun _ => hrd _ _ _ fun _ => hwr _ _ _ _ fun _ => ⟨_, rfl⟩
  | push a =>
    simp only [exec, execPush, memWrite_byte]
    exact hrd _ _ _ fun _ => ⟨_, rfl⟩
  | pop a =>
    simp only [exec, execPop, memRead_byte]
    exact hwr _ _ _ _ fun _ => hsp _ _ _ fun _ => ⟨_, rfl⟩
  | call a =>
    simp only [exec, execCall, memWrite_byte]
    exact hrd _ _ _ fun _ => ⟨_, rfl⟩
  | ret =>
    simp only [exec, execRet, memRead_byte]
    exact hsp _ _ _ fun _ => ⟨_, rfl⟩
  | rsv54 a => exact ⟨_, rfl⟩
  | rsv55 a => exact ⟨_, rfl⟩
  | rsv56 a => exact ⟨_, rfl⟩
  | nop1 id => exact ⟨_, rfl⟩
  | nop2 id a => exact ⟨_, rfl⟩
  | nop3 id a b => exact ⟨_, rfl⟩
  | nop4 id a b => exact ⟨_, rfl⟩

/-! ## Placing an instruction where the next step fetches -/

/-- The state `withFetchWord` gives executes at its next step, wherever the machine was (log 19). -/
theorem withFetchWord_executes (s : State) (nbits w : Nat) : Executes (s.withFetchWord nbits w) := by
  refine ⟨rfl, ?_⟩
  simp only [State.withFetchWord, State.withFetchBytes]
  split
  · assumption
  · decide

/-- The bytes at the program counter are then those of the word. -/
theorem withFetchWord_bytes {s : State} (hm : s.mem.wf = true) (nbits w k : Nat) (hk : k < 3) :
    (s.withFetchWord nbits w).mem.byteAt ((s.withFetchWord nbits w).pc.toNat + k) = tableByte nbits w k := by
  have hp := (withFetchWord_executes s nbits w).2
  simp only [lastFetchable, Config.memSize] at hp
  have hl : (tableBytes nbits w).length = 4 := by simp [tableBytes, maxInstrBytes]
  have h := byteAt_putBytes_inside (tableBytes nbits w) (m := s.mem) (a := (s.withFetchWord nbits w).pc.toNat) (k := k)
    hm (by omega) (by simp only [Config.memSize]; omega)
  refine h.trans ?_
  simp [tableBytes]

/-- The next step runs exactly the instruction the decoder reads from the word. -/
theorem step_withFetchWord {s : State} (hm : s.mem.wf = true) {nbits w : Nat} {i : Instr}
    (hi : decodeTableWord nbits w = some i) :
    step (s.withFetchWord nbits w) = exec i (s.withFetchWord nbits w) := by
  have hd : decode (tableByte nbits w 0) (tableByte nbits w 1) (tableByte nbits w 2) = i := by
    have : decodeTableWord nbits w =
        some (decode (tableByte nbits w 0) (tableByte nbits w 1) (tableByte nbits w 2)) := rfl
    rw [this] at hi
    injection hi
  have h0 := withFetchWord_bytes hm nbits w 0 (by omega)
  have h1 := withFetchWord_bytes hm nbits w 1 (by omega)
  have h2 := withFetchWord_bytes hm nbits w 2 (by omega)
  rw [step_executes (withFetchWord_executes s nbits w), opcodeAtPc, operandAtPc, h1, h2]
  rw [Nat.add_zero] at h0
  rw [h0, hd]

end Sys2Proof.Machine
end

