-- ==== Sys2Proof/Tests/Slice0.lean ====
section
/-! SUPPORT. Tests: the ill-formed terms the check refuses, one word per row of the opcode map, the vectors of
spec/95_test_vectors.md for single cycles, and for each statement with hypotheses a state and operands that meet
them. Every expected result is the spec's; the vector's name stands in the comment. -/

namespace Sys2Proof.Tests

open Sys2Proof Sys2Proof.Machine

/-- A running machine at `pc` with register values `x`, cells `cells` set and everything else as at reset. -/
def st (pc : Word) (x : Vector Byte 8) (cells : List (Nat × Byte)) : State :=
  { State.reset with pc := pc, x := x, mem := cells.foldl (fun m c => Memory.put m c.1 c.2) [] }

/-- The reset registers. -/
def x0 : Vector Byte 8 := State.reset.x

/-- `x0` with the stack pointer `v`. -/
def xsp (v : Byte) : Vector Byte 8 := x0.set 7 v

/-- The next state of an answer, where there is one. -/
def nextOf : Result → Option State
  | .next t => some t
  | _ => none

/-! ## The well-formedness check refuses -/

theorem test_wf_refuses_hlt_as_nop1 : (Instr.nop1 0x01#6).wellFormed = false := by decide
theorem test_wf_refuses_ret_as_nop1 : (Instr.nop1 0x11#6).wellFormed = false := by decide
theorem test_wf_refuses_listed_as_nop2 :
    [0x05#6, 0x06#6, 0x07#6, 0x10#6, 0x14#6, 0x15#6, 0x16#6].all (fun i => !(Instr.nop2 i 0#8).wellFormed) = true := by
  decide
theorem test_wf_refuses_listed_as_nop3 :
    [0x02#6, 0x20#6, 0x22#6].all (fun i => !(Instr.nop3 i 0#8 0#8).wellFormed) = true := by decide

/-! ## One word per row (30_encoding.md R52, R54), bits as printed there -/

theorem test_decode_hlt : decode 0b00000001#8 0b11111111#8 0b11111111#8 = .hlt := by decide
theorem test_decode_ldi : decode 0b10000010#8 0b00000011#8 0b11111111#8 = .ldi 3#8 255#8 := by decide
theorem test_decode_prn : decode 0b01000111#8 0b00000111#8 0b00000001#8 = .prn 7#8 := by decide
theorem test_decode_mul : decode 0b10100010#8 0b00000000#8 0b00000001#8 = .mul 0#8 1#8 := by decide
theorem test_decode_add : decode 0b10100000#8 0b00001010#8 0b00001011#8 = .add 10#8 11#8 := by decide
theorem test_decode_push : decode 0b01000101#8 0b00000010#8 0b00000000#8 = .push 2#8 := by decide
theorem test_decode_pop : decode 0b01000110#8 0b00000001#8 0b00000000#8 = .pop 1#8 := by decide
theorem test_decode_call : decode 0b01010000#8 0b00000001#8 0b00000000#8 = .call 1#8 := by decide
theorem test_decode_ret : decode 0b00010001#8 0b00000000#8 0b00000000#8 = .ret := by decide
theorem test_decode_rsv54 : decode 0b01010100#8 0b00000000#8 0b00000000#8 = .rsv54 0#8 := by decide
theorem test_decode_rsv55 : decode 0b01010101#8 0b00000000#8 0b00000000#8 = .rsv55 0#8 := by decide
theorem test_decode_rsv56 : decode 0b01010110#8 0b00000111#8 0b00000000#8 = .rsv56 7#8 := by decide
theorem test_decode_nop1 : decode 0b00010000#8 0b00000000#8 0b00000000#8 = .nop1 0b010000#6 := by decide
theorem test_decode_nop2 : decode 0b01000000#8 0b00000001#8 0b00000000#8 = .nop2 0b000000#6 1#8 := by decide
theorem test_decode_nop3 : decode 0b10100111#8 0b00000000#8 0b00000001#8 = .nop3 0b100111#6 0#8 1#8 := by decide
theorem test_decode_nop4 : decode 0b11000011#8 0b00000001#8 0b00000001#8 = .nop4 0b000011#6 1#8 1#8 := by decide
theorem test_decode_rejects_short : decodeBytes [0x01#8, 0x00#8] = .error .truncated := rfl
theorem test_table_word : decodeTableWord 24 0xFF0382 = some (.ldi 3#8 255#8) := by decide
theorem test_table_word_short : decodeTableWord 8 0x82 = some (.ldi 0#8 0#8) := by decide
theorem test_fetch_word :
    (nextOf (step (State.reset.withFetchWord 24 0x080082))).map (fun t => (t.reg 0, t.pc)) = some (8#8, 3#16) := by
  decide

/-! ## Single cycles (95_test_vectors.md part 2) -/

/-- V-HLT-1. -/
theorem test_hlt : (nextOf (step (st 5 x0 [(5, 0x01#8)]))).map (fun t => (t.run, t.pc)) =
    some (.halted .hltOpcode, 6#16) := by decide
/-- V-LDI-3. -/
theorem test_ldi_sp : (nextOf (step (st 0 x0 [(0, 0x82#8), (1, 7#8), (2, 0x20#8)]))).map (fun t => (t.reg 7, t.pc)) =
    some (0x20#8, 3#16) := by decide
/-- V-LDI-4. -/
theorem test_ldi_index_fault : (nextOf (step (st 0 x0 [(0, 0x82#8), (1, 8#8), (2, 1#8)]))).map
    (fun t => (t.run, t.pc, t.x)) = some (.faulted (.regIndexFault 8#8), 0#16, x0) := by decide
/-- V-PRN-2. -/
theorem test_prn_sp : (nextOf (step { st 0 x0 [(0, 0x47#8), (1, 7#8)] with out := [1#8] })).map
    (fun t => (t.out, t.pc)) = some ([1#8, 244#8], 2#16) := by decide
/-- V-PRN-4. -/
theorem test_prn_index_fault : (nextOf (step (st 0 x0 [(0, 0x47#8), (1, 0xFF#8)]))).map (fun t => (t.run, t.out)) =
    some (.faulted (.regIndexFault 0xFF#8), []) := by decide
/-- V-MUL-3. -/
theorem test_mul_wraps : (nextOf (step (st 0 (x0.set 2 255#8) [(0, 0xA2#8), (1, 2#8), (2, 2#8)]))).map
    (fun t => (t.reg 2, t.fl)) = some (1#8, 0#8) := by decide
/-- V-MUL-8. -/
theorem test_mul_second_index_fault : (nextOf (step (st 0 x0 [(0, 0xA2#8), (2, 8#8)]))).map (fun t => (t.run, t.x)) =
    some (.faulted (.regIndexFault 8#8), x0) := by decide
/-- V-ADD-2. -/
theorem test_add_wraps :
    (nextOf (step (st 0 ((x0.set 0 200#8).set 1 100#8) [(0, 0xA0#8), (2, 1#8)]))).map
    (fun t => (t.reg 0, t.reg 1)) = some (44#8, 100#8) := by decide
/-- V-ADD-9. -/
theorem test_add_first_index_first : (nextOf (step (st 0 x0 [(0, 0xA0#8), (1, 10#8), (2, 11#8)]))).map State.run =
    some (.faulted (.regIndexFault 10#8)) := by decide
/-- V-PUSH-3. -/
theorem test_push_sp : (nextOf (step (st 0 x0 [(0, 0x45#8), (1, 7#8)]))).map
    (fun t => (t.loadByte 0xF3, t.reg 7, t.pc)) = some (some 0xF4#8, 0xF3#8, 2#16) := by decide
/-- V-PUSH-6: the PUSH overwrites its own opcode and still advances by it. -/
theorem test_push_own_opcode : (nextOf (step (st 6 (xsp 7#8) [(6, 0x45#8)]))).map
    (fun t => (t.loadByte 6, t.reg 7, t.pc)) = some (some 0#8, 6#8, 8#16) := by decide
/-- V-POP-4. -/
theorem test_pop_overflow : (nextOf (step (st 3 (xsp 0xFF#8) [(3, 0x46#8), (4, 2#8), (0xFF, 9#8)]))).map
    (fun t => (t.reg 2, t.run, t.reg 7, t.pc)) =
    some (9#8, .faulted (.spIncrementOverflow 0xFF#8), 0xFF#8, 3#16) := by decide
/-- V-POP-5. -/
theorem test_pop_sp : (nextOf (step (st 0 (xsp 0xF3#8) [(0, 0x46#8), (1, 7#8), (0xF3, 9#8)]))).map
    (fun t => t.reg 7) = some 0xF4#8 := by decide
/-- V-CALL-3. -/
theorem test_call_sp : (nextOf (step (st 0 x0 [(0, 0x50#8), (1, 7#8)]))).map
    (fun t => (t.loadByte 0xF3, t.reg 7, t.pc)) = some (some 1#8, 0xF3#8, 0xF3#16) := by decide
/-- V-CALL-4. -/
theorem test_call_index_fault : (nextOf (step (st 0 x0 [(0, 0x50#8), (1, 9#8)]))).map
    (fun t => (t.loadByte 0xF3, t.reg 7, t.run, t.pc)) =
    some (some 1#8, 0xF3#8, .faulted (.regIndexFault 9#8), 0#16) := by decide
/-- V-RET-1. -/
theorem test_ret : (nextOf (step (st 17 (xsp 0xF3#8) [(17, 0x11#8), (0xF3, 7#8)]))).map (fun t => (t.pc, t.reg 7)) =
    some (8#16, 0xF4#8) := by decide
/-- V-RET-5. -/
theorem test_ret_overflow : (nextOf (step (st 5 (xsp 0xFF#8) [(5, 0x11#8), (0xFF, 0x30#8)]))).map
    (fun t => (t.pc, t.run, t.reg 7)) = some (0x30#16, .faulted (.spIncrementOverflow 0xFF#8), 0xFF#8) := by decide
/-- V-RSV-1. -/
theorem test_rsv54 : nextOf (step (st 16 x0 [(16, 0x54#8)])) = some (st 16 x0 [(16, 0x54#8)]) := by decide
/-- V-RSV-2. -/
theorem test_rsv55 : nextOf (step (st 0 x0 [(0, 0x55#8)])) = some (st 0 x0 [(0, 0x55#8)]) := by decide
/-- V-RSV-3. -/
theorem test_rsv56 : nextOf (step (st 9 x0 [(9, 0x56#8), (10, 7#8)])) = some (st 9 x0 [(9, 0x56#8), (10, 7#8)]) := by
  decide
/-- V-NOP-7. -/
theorem test_nop1 : nextOf (step (st 0 x0 [(0, 0x10#8)])) = some (st 1 x0 [(0, 0x10#8)]) := by decide
/-- V-NOP-2. -/
theorem test_nop2 : nextOf (step (st 6 x0 [(6, 0x40#8), (7, 1#8)])) = some (st 8 x0 [(6, 0x40#8), (7, 1#8)]) := by decide
/-- V-NOP-5. -/
theorem test_nop3 : nextOf (step (st 0 x0 [(0, 0xA7#8), (2, 1#8)])) = some (st 3 x0 [(0, 0xA7#8), (2, 1#8)]) := by decide
/-- V-CYC-7. -/
theorem test_nop4_at_253 : nextOf (step (st 253 x0 [(253, 0xC0#8)])) = some (st 257 x0 [(253, 0xC0#8)]) := by decide
/-- V-CYC-1. -/
theorem test_soft_termination : (nextOf (step (st 256 x0 []))).map (fun t => (t.run, t.pc)) =
    some (.halted .endOfMemory, 256#16) := by decide
/-- V-CYC-3. -/
theorem test_prefetch_fault : (nextOf (step (st 254 x0 [(254, 0x01#8)]))).map (fun t => (t.run, t.pc)) =
    some (.faulted (.memRangeFault 256), 254#16) := by decide
/-- V-ALU-4. -/
theorem test_alu_cmp : (nextOf (aluInvoke .cmp 200#8 9#8 State.reset)).map State.fl = some 2#8 := by decide
/-- V-ALU-5. -/
theorem test_alu_add : (nextOf (aluInvoke .add 0#8 1#8 (st 0 ((x0.set 0 250#8).set 1 10#8) []))).map
    (fun t => (t.reg 0, t.fl, t.pc)) = some (4#8, 0#8, 0#16) := by decide
/-- R18, R114: after HLT an unsupported select does not turn Halted into Faulted. -/
theorem test_alu_after_halt : aluInvoke (.other 0) 0#8 0#8 (State.reset.halt .hltOpcode) = .fault (.halted .hltOpcode) :=
  rfl
/-- S7: the comment, the indented line and the blank line leave the bytes of LDI, R0. -/
theorem test_source_lines :
    imageOfLines [['#', ' ', '8'], [], ['1', '0', '0', '0', '0', '0', '1', '0', ' ', '#', ' ', 'L'],
      [' ', ' ', '0', '0', '0', '0', '0', '0', '0', '0']] = .ok [0x82#8, 0x00#8] := by rfl
/-- R133, D13: a line that is no base-2 literal is refused. -/
theorem test_source_malformed : imageOfLines [['1', '2']] = .error .malformedLine := by rfl
/-- A text is split at its line feeds. -/
theorem test_source_text : imageOfSource ['1', '\r', '\n', '1', '0', '\n'] = .ok [1#8, 2#8] := by rfl

/-! ## The hypotheses of the statements can be met -/

theorem witness_ImageLoadFillsMemoryFromZero :
    ([] : List Byte).length ≤ 256 ∧ (List.replicate 256 0x54#8).length ≤ 256 :=
  ⟨by decide, List.length_replicate.le⟩

/-- Every character of the set, on either side of the line. -/
theorem witness_CommentsAndBlankLinesDoNotChangeTheImage :
    ∀ d : Char, d ∈ [' ', '\t'] ++ ['\r', '\n'] → d ∈ [' ', '\t', '\r', '\n'] := fun _ h => h

theorem witness_OneLiteralPerLineLoadsThoseBytes :
    ([] : List Byte).length ≤ 256 ∧ (List.replicate 256 0xFF#8).length ≤ 256 :=
  ⟨by decide, List.length_replicate.le⟩

theorem bytesOfLines_ones (n : Nat) : bytesOfLines (List.replicate n ['1']) = .ok (List.replicate n 1#8) := by
  induction n with
  | zero => rfl
  | succ n ih =>
    have h : meaningfulPart ['1'] = ['1'] := by rfl
    have hb : byteOfLiteral ['1'] = .ok 1#8 := by rfl
    simp [List.replicate_succ, bytesOfLines, h, hb, ih]

theorem witness_SourceBeyondMemoryIsRefused :
    (∃ lines bytes, bytesOfLines lines = .ok bytes ∧ bytes.length = 256) ∧
    (∃ lines bytes, bytesOfLines lines = .ok bytes ∧ bytes.length = 257) :=
  ⟨⟨_, _, bytesOfLines_ones 256, List.length_replicate⟩, ⟨_, _, bytesOfLines_ones 257, List.length_replicate⟩⟩

theorem witness_DecodeOfEncodeIsTheInstruction :
    (Instr.nop1 0x00#6).wellFormed = true ∧ 3 ≤ (encode (.nop1 0x00#6) ++ [0xFF#8, 0xFF#8]).length ∧
    (Instr.nop2 0x3F#6 0xFF#8).wellFormed = true ∧ 3 ≤ (encode (.nop2 0x3F#6 0xFF#8) ++ [0xFF#8]).length ∧
    (Instr.nop4 0x3F#6 0xFF#8 0xFF#8).wellFormed = true ∧ 3 ≤ (encode (.nop4 0x3F#6 0xFF#8 0xFF#8) ++ []).length := by
  decide

theorem witness_DecoderIsTotalWithOneRowPerOpcode :
    (∃ r, r ∈ opcodeTable ∧ r.selects 0x11#8 = true) ∧ (∃ r, r ∈ opcodeTable ∧ r.selects 0xFF#8 = true) ∧
    0x10#8 ∉ listedOpcodes ∧ 0xFF#8 ∉ listedOpcodes :=
  ⟨⟨⟨.ret, 0x11#8, 0xFF#8, []⟩, by decide⟩, ⟨⟨.nop4, 0xC0#8, 0xC0#8, []⟩, by decide⟩, by decide, by decide⟩

theorem witness_StepRunsTheDecodedInstruction :
    ∃ s : State, (Instr.nop4 0x00#6 0#8 0#8).wellFormed = true ∧ Executes s ∧
      BytesAtPc s ((encode (.nop4 0x00#6 0#8 0#8)).take 3) ∧ s.pc = 253#16 := by
  refine ⟨st 253 x0 [(253, 0xC0#8)], rfl, ⟨rfl, by decide⟩, ?_, rfl⟩
  intro k hk
  have hk : k < 3 := hk
  interval_cases k <;> rfl

theorem witness_RegisterPrimitivesCheckTheWholeIndex : (7#8 : Byte).toNat < 8 ∧ 8 ≤ (8#8 : Byte).toNat := by decide

theorem witness_MemoryReadsTheLatestWrite : State.reset.mem.wf = true ∧ (255 < 256 ∧ 0 < 256) ∧ 256 ≤ 256 := by decide

/-- The register operands of LDI, PRN, MUL, ADD, PUSH, POP and CALL, register 7 included. -/
theorem witness_register_operands :
    (0#8 : Byte).toNat < 8 ∧ (7#8 : Byte).toNat < 8 ∧ State.reset.mem.wf = true := by decide

theorem witness_PopLoadsFromTheStackPointer :
    (7#8 : Byte).toNat < 8 ∧ (0#8 : Byte).toNat ≠ 7 ∧ (st 0 (xsp 0xFE#8) []).reg 7 ≠ 0xFF#8 := by decide

theorem witness_RetContinuesAfterTheStoredByte : (st 0 (xsp 0xFE#8) []).reg 7 ≠ 0xFF#8 := by decide

theorem witness_ReservedOpcodesRefetchForEver :
    ∃ s1 s2 s3 : State, (Executes s1 ∧ opcodeAtPc s1 = 0b01010100#8) ∧ (Executes s2 ∧ opcodeAtPc s2 = 0b01010101#8) ∧
      (Executes s3 ∧ opcodeAtPc s3 = 0b01010110#8) :=
  ⟨st 0 x0 [(0, 0x54#8)], st 253 x0 [(253, 0x55#8)], st 9 x0 [(9, 0x56#8)], ⟨⟨rfl, by decide⟩, by decide⟩,
    ⟨⟨rfl, by decide⟩, by decide⟩, ⟨⟨rfl, by decide⟩, by decide⟩⟩

theorem witness_UnlistedOpcodesOnlyAdvanceAndNoOpcodeTraps :
    ∃ s : State, Executes s ∧ opcodeAtPc s ∉ listedOpcodes ∧ (operandAtPc s).toNat < 8 ∧
      (s.mem.byteAt (s.pc.toNat + 2)).toNat < 8 ∧ s.reg 7 ≠ 0xFF#8 :=
  ⟨st 253 (xsp 0xFE#8) [(253, 0xFF#8), (254, 7#8), (255, 7#8)], ⟨rfl, by decide⟩, by decide, by decide, by decide,
    by decide⟩

theorem witness_Nop2SkipsItsOperandByte :
    ∃ s1 s2 : State, (Executes s1 ∧ opcodeAtPc s1 = 0x40#8 ∧ IsNop2Opcode (opcodeAtPc s1)) ∧
      (Executes s2 ∧ opcodeAtPc s2 = 0x7F#8 ∧ IsNop2Opcode (opcodeAtPc s2)) :=
  ⟨st 0 x0 [(0, 0x40#8)], st 0 x0 [(0, 0x7F#8)], ⟨⟨rfl, by decide⟩, by decide, by decide⟩,
    ⟨⟨rfl, by decide⟩, by decide, by decide⟩⟩

theorem witness_Nop3SkipsBothOperandBytes :
    ∃ s1 s2 : State, (Executes s1 ∧ opcodeAtPc s1 = 0x80#8 ∧ IsNop3Opcode (opcodeAtPc s1)) ∧
      (Executes s2 ∧ opcodeAtPc s2 = 0xBF#8 ∧ IsNop3Opcode (opcodeAtPc s2)) :=
  ⟨st 0 x0 [(0, 0x80#8)], st 0 x0 [(0, 0xBF#8)], ⟨⟨rfl, by decide⟩, by decide, by decide⟩,
    ⟨⟨rfl, by decide⟩, by decide, by decide⟩⟩

theorem witness_GenericAdvancementByTheOpcodesTopBits :
    (∃ t : State, exec .ret (st 17 (xsp 0xF3#8) [(0xF3, 7#8)]) = .next t ∧ (∀ c : FaultCause, t.run ≠ .faulted c) ∧
      Instr.ret.mnemonic ∉ [Mnemonic.call, .rsv54, .rsv55, .rsv56]) ∧
    (∃ t : State, exec .hlt State.reset = .next t ∧ (∀ c : FaultCause, t.run ≠ .faulted c) ∧
      Instr.hlt.mnemonic ∉ [Mnemonic.call, .rsv54, .rsv55, .rsv56]) :=
  ⟨⟨_, rfl, fun _ => (nomatch ·), by decide⟩, ⟨_, rfl, fun _ => (nomatch ·), by decide⟩⟩

theorem witness_RegisterOperandAboveSevenFaults :
    8 ≤ (8#8 : Byte).toNat ∧ 8 ≤ (255#8 : Byte).toNat ∧ (7#8 : Byte).toNat < 8 ∧ State.reset.mem.wf = true := by decide

theorem witness_StackPointerIncrementFaultsAtTop :
    (st 0 (xsp 0xFF#8) []).reg 7 = 0xFF#8 ∧ (7#8 : Byte).toNat < 8 := by decide

theorem witness_FetchInTheLastTwoCellsFaults :
    ((st 254 x0 []).run = .running ∧ (st 254 x0 []).pc = 254#16) ∧
    ((st 255 x0 []).run = .running ∧ (st 255 x0 []).pc = 255#16) := by decide

theorem witness_EndOfMemoryHaltsSoftly :
    ((st 256 x0 []).run = .running ∧ 256 ≤ (st 256 x0 []).pc.toNat) ∧
    ((st 257 x0 []).run = .running ∧ 256 ≤ (st 257 x0 []).pc.toNat) := by decide

theorem witness_OnlyARunningMachineSteps :
    State.reset.run = .running ∧ Stopped { State.reset with run := .halted .hltOpcode } ∧
    Stopped { State.reset with run := .faulted (.regIndexFault 8#8) } :=
  ⟨rfl, (nomatch ·), (nomatch ·)⟩

/-- A state with cells set, at the last address an instruction can be fetched from, that meets the invariant. -/
theorem pushing_state_inv : (st 253 x0 [(253, 0x45#8), (254, 7#8)]).Inv := ⟨by decide, by decide, by decide⟩

/-- The hypothesis of RunLeavesRunningOnlyAsTabled, one step for each of its cases. -/
theorem witness_RunLeavesRunningOnlyAsTabled :
    (∃ t, step State.reset = .next t ∧ t.run = .running) ∧
    (∃ t, step (st 253 x0 [(253, 1#8)]) = .next t ∧ t.run = .halted .hltOpcode) ∧
    (∃ t, step (st 256 x0 []) = .next t ∧ t.run = .halted .endOfMemory) ∧
    (∃ t, step (st 255 x0 []) = .next t ∧ t.run = .faulted (.memRangeFault 256)) ∧
    (∃ t, step (st 0 x0 [(0, 0xA0#8), (2, 8#8)]) = .next t ∧ t.run = .faulted (.regIndexFault 8#8)) ∧
    (∃ t, step (st 0 (xsp 0xFF#8) [(0, 0x11#8)]) = .next t ∧ t.run = .faulted (.spIncrementOverflow 0xFF#8)) :=
  ⟨⟨_, rfl, rfl⟩, ⟨_, rfl, rfl⟩, ⟨_, rfl, rfl⟩, ⟨_, rfl, rfl⟩, ⟨_, rfl, rfl⟩, ⟨_, rfl, rfl⟩⟩

theorem witness_EveryStepKeepsTheInvariant :
    ∃ s t : State, s.Inv ∧ step s = .next t ∧ t.loadByte 0xF3 = some 0xF4#8 :=
  ⟨_, _, pushing_state_inv, rfl, rfl⟩

/-- NoCycleWritesTheFlagRegister and OutputIsAppendOnly: a run of two cycles. -/
theorem witness_run_of_two_cycles : ∃ t : State, After 2 State.reset t ∧ t.pc = 2#16 := ⟨_, rfl, rfl⟩

/-- NoCycleReadsTheFlagRegister, NoCycleReadsTheOutput, OnlyPushAndCallWriteMemory: a step that emits and one that
stores. -/
theorem witness_steps_that_emit_and_store :
    (∃ t, step (st 0 x0 [(0, 0x47#8)]) = .next t ∧ t.out = [0#8]) ∧
    (∃ t, step (st 0 x0 [(0, 0x45#8), (1, 7#8)]) = .next t ∧ t.loadByte 0xF3 = some 0xF4#8) ∧
    (¬ (Executes (st 0 x0 []) ∧ opcodeAtPc (st 0 x0 []) ∈ [0x45#8, 0x50#8])) :=
  ⟨⟨_, rfl, rfl⟩, ⟨_, rfl, rfl⟩, fun h => absurd h.2 (by decide)⟩

theorem witness_RegistersChangeOnlyAsTabled :
    (∃ s t : State, step s = .next t ∧ t.reg 3 ≠ s.reg 3) ∧ (∃ s t : State, step s = .next t ∧ t.reg 7 ≠ s.reg 7) :=
  ⟨⟨st 0 x0 [(0, 0x82#8), (1, 3#8), (2, 9#8)], _, rfl, by decide⟩, ⟨st 0 x0 [(0, 0x45#8)], _, rfl, by decide⟩⟩

/-- V-PUSH-5, and the last address at which the next instruction can still be fetched. -/
theorem witness_AStoreIsSeenByTheNextFetch :
    ∃ s : State, (0#8 : Byte).toNat < 8 ∧ s.mem.wf = true ∧ Executes s ∧ BytesAtPc s [0x45#8, 0#8] ∧
      s.pc.toNat + 2 = 253 ∧ (spDecrement s.sp).toNat = s.pc.toNat + 2 := by
  refine ⟨st 251 (xsp 254#8) [(251, 0x45#8)], by decide, by decide, ⟨rfl, by decide⟩, ?_, by decide, by decide⟩
  intro k hk
  have hk : k < 2 := hk
  interval_cases k <;> rfl

theorem witness_PushThenPopMovesTheValue :
    ∃ s : State, (7#8 : Byte).toNat < 8 ∧ (6#8 : Byte).toNat < 7 ∧ s.mem.wf = true ∧ s.run = .running ∧
      s.pc.toNat + 2 = 253 ∧ BytesAtPc s [0x45#8, 7#8, 0x46#8, 6#8] ∧ s.reg 7 ≠ 0#8 ∧
      (spDecrement s.sp).toNat ≠ s.pc.toNat + 2 ∧ (spDecrement s.sp).toNat ≠ s.pc.toNat + 3 := by
  refine ⟨st 251 (xsp 1#8) [(251, 0x45#8), (252, 7#8), (253, 0x46#8), (254, 6#8)], by decide, by decide, by decide, rfl,
    by decide, ?_, by decide, by decide, by decide⟩
  intro k hk
  have hk : k < 4 := hk
  interval_cases k <;> rfl

/-- CALL R6 at 253 and a RET reached with the stack as CALL left it. -/
theorem witness_ReturnContinuesAfterTheCall :
    ∃ s t u : State, (6#8 : Byte).toNat < 7 ∧ s.mem.wf = true ∧ Executes s ∧ BytesAtPc s [0x50#8, 6#8] ∧
      s.reg 7 ≠ 0#8 ∧ step s = .next t ∧ Executes u ∧ opcodeAtPc u = 0x11#8 ∧ u.reg 7 = t.reg 7 ∧
      u.loadByte (t.reg 7).toNat = t.loadByte (t.reg 7).toNat := by
  refine ⟨st 253 x0 [(253, 0x50#8), (254, 6#8)], _,
    st 0 (xsp 0xF3#8) [(0, 0x11#8), (0xF3, 254#8)], by decide, by decide, ⟨rfl, by decide⟩, ?_, by decide, rfl,
    ⟨rfl, by decide⟩, by decide, by decide, by decide⟩
  intro k hk
  have hk : k < 2 := hk
  interval_cases k <;> rfl

theorem witness_AluCompareSetsOneFlagFromTheArguments : State.reset.run = .running ∧
    (3#8 : Byte).toNat = (3#8 : Byte).toNat ∧ (2#8 : Byte).toNat < (5#8 : Byte).toNat ∧
    (254#8 : Byte).toNat < (255#8 : Byte).toNat := by decide

theorem witness_AluAddAgreesWithTheInstruction : State.reset.run = .running ∧
    ((7#8 : Byte).toNat < 8 ∧ (7#8 : Byte).toNat < 8) ∧ (8 ≤ (8#8 : Byte).toNat ∨ 8 ≤ (0#8 : Byte).toNat) := by decide

theorem witness_AluUnsupportedOperationFaults : State.reset.run = .running := rfl

/-- An invocation that answers a next state, and one on a halted machine. -/
theorem witness_AluHelperActsOnARunningMachineOnly :
    (∃ t : State, aluInvoke .cmp 1#8 2#8 State.reset = .next t) ∧
    (State.reset.halt .hltOpcode).run ≠ .running := ⟨⟨_, rfl⟩, by decide⟩

end Sys2Proof.Tests
end

/-! SUPPORT. The frame of a register write, and the register primitives (00_scope.md R5). -/

namespace Sys2Proof.Machine

/-! ## The frame of a register write -/

/-- A write to the register that the operand byte `b` names changes no other register. -/
theorem regsKeptExcept_setReg (s : State) {b : Byte} (hb : b.toNat < 8) (v : Byte) :
    RegsKeptExcept b s (s.setReg ⟨b.toNat, hb⟩ v) := by
  intro j hj
  have hne : j ≠ ⟨b.toNat, hb⟩ := fun e => hj (congrArg Fin.val e)
  exact reg_setReg_other s v hne

theorem memKept_setReg (s : State) (i : Fin Config.numRegs) (v : Byte) : MemKept s (s.setReg i v) :=
  loadByte_setReg s i v

theorem restKept_setReg (s : State) (i : Fin Config.numRegs) (v : Byte) : RestKept s (s.setReg i v) :=
  ⟨setReg_fl s i v, setReg_out s i v, setReg_run s i v⟩

/-- A register write with an index 0 to 7 goes on from a state that differs in that register only. -/
theorem writeReg_named_frame {b : Byte} (hb : b.toNat < 8) (v : Byte) (s : State) (rest : State → Result) :
    ∃ t : State, writeReg b v s rest = rest t ∧ t.reg ⟨b.toNat, hb⟩ = v ∧
      RegsKeptExcept b s t ∧ MemKept s t ∧ t.pc = s.pc ∧ RestKept s t :=
  ⟨s.setReg ⟨b.toNat, hb⟩ v, writeReg_named hb v s rest, reg_setReg_same s _ v, regsKeptExcept_setReg s hb v,
    memKept_setReg s _ v, setReg_pc s _ v, restKept_setReg s _ v⟩

/-! ## The register primitives -/

/-- Settles O11: the two cases of each primitive, and the frame of the write. -/
theorem registerPrimitivesCheckTheWholeIndex : Obligations.RegisterPrimitivesCheckTheWholeIndex := by
  intro i v s restR restW
  exact ⟨fun h => readReg_named h s restR, fun h => readReg_unnamed h s restR,
    fun h => writeReg_named_frame h v s restW, fun h => writeReg_unnamed h v s restW⟩

end Sys2Proof.Machine

/-! SUPPORT. Runs of several cycles, and the reserved opcodes (30_encoding.md R55). -/

namespace Sys2Proof.Machine

/-! ## Runs of several cycles -/

@[simp] theorem after_zero (s t : State) : After 0 s t ↔ s = t :=
  ⟨Host.Outcome.next.inj, congrArg Host.Outcome.next⟩

/-- A run whose first cycle gives `u` goes on from `u`. -/
theorem after_succ {s u : State} (h : step s = .next u) (k : Nat) (t : State) :
    After (k + 1) s t ↔ After k u t := by
  have hcore : Sys2Proof.core.step s = .next u := h
  simp only [After, Host.Core.run, hcore]

/-- A state that one cycle gives back is the state after any number of cycles. -/
theorem after_of_step_self {s : State} (h : step s = .next s) (k : Nat) : After k s s := by
  induction k with
  | zero => exact (after_zero s s).mpr rfl
  | succ k ih => exact (after_succ h k s).mpr ih

/-! ## The reserved opcodes -/

/-- The three reserved opcodes hang, whatever the operand bytes (R55, R100 to R102). -/
theorem exec_decode_reserved {ir : Byte} (h : ir ∈ [Opcode.rsv54, Opcode.rsv55, Opcode.rsv56]) (a b : Byte)
    (s : State) : exec (decode ir a b) s = .next s := by
  simp only [List.mem_cons, List.not_mem_nil, or_false] at h
  obtain rfl | rfl | rfl := h
  · rw [decode_rsv54, exec, execRsv54, hang]
  · rw [decode_rsv55, exec, execRsv55, hang]
  · rw [decode_rsv56, exec, execRsv56, hang]

/-- A cycle that fetches a reserved opcode gives the same state. -/
theorem step_reserved {s : State} (hs : Executes s)
    (hop : opcodeAtPc s ∈ [Opcode.rsv54, Opcode.rsv55, Opcode.rsv56]) : step s = .next s :=
  (step_executes hs).trans (exec_decode_reserved hop _ _ s)

/-- Settles O24: one cycle gives the state back, and so by induction does every number of cycles. -/
theorem reservedOpcodesRefetchForEver : Obligations.ReservedOpcodesRefetchForEver := by
  intro s hs hop
  have hstep : step s = .next s := step_reserved hs hop
  exact ⟨hstep, after_of_step_self hstep⟩

end Sys2Proof.Machine

/-! SUPPORT. The default arm of the decoder (30_encoding.md R56, R57), and the no-operations NOP2 and NOP3
(45_reserved_unlisted.md R104, R105). -/

namespace Sys2Proof.Machine

/-! ## The default arm -/

/-- The no-operation of the unlisted opcodes with count field `n` (R103 to R106). -/
def noOperation (n : BitVec 2) : Mnemonic :=
  if n = 0b00#2 then .nop1 else if n = 0b01#2 then .nop2 else if n = 0b10#2 then .nop3 else .nop4

theorem noOperation_inj {m n : BitVec 2} : noOperation m = noOperation n ↔ m = n := by
  revert m n
  decide

theorem mnemonic_decodeUnlisted (ir a b : Byte) :
    (decodeUnlisted ir a b).mnemonic = noOperation (Opcode.countField ir) := by
  unfold decodeUnlisted noOperation
  split_ifs <;> rfl

/-- Whatever its length, an unlisted opcode does nothing but the generic advancement by its own byte. -/
theorem exec_decodeUnlisted (ir a b : Byte) (s : State) : exec (decodeUnlisted ir a b) s = finish ir s := by
  have heta : Opcode.fromFields (Opcode.countField ir) (Opcode.idField ir) = ir := fromFields_eta ir
  unfold decodeUnlisted
  split_ifs with h0 h1 h2
  · rw [exec, execNop1, ← h0, heta]
  · rw [exec, execNop2, ← h1, heta]
  · rw [exec, execNop3, ← h2, heta]
  · have h3 : Opcode.countField ir = 0b11#2 := by bv_omega
    rw [exec, execNop4, ← h3, heta]

/-! ## Listed and unlisted opcodes -/

theorem decode_unlisted {ir : Byte} (h : ir ∉ listedOpcodes) (a b : Byte) :
    decode ir a b = decodeUnlisted ir a b :=
  decode_default a b h

/-- The decoder gives each exact row of the opcode map at that row's value. -/
theorem mnemonic_decode_exactRow {r : OpcodeRow} (h : r ∈ exactRows) (a b : Byte) :
    (decode r.pattern a b).mnemonic = r.mnemonic := by
  simp only [exactRows, List.mem_cons, List.not_mem_nil, or_false] at h
  obtain rfl | rfl | rfl | rfl | rfl | rfl | rfl | rfl | rfl | rfl | rfl | rfl := h <;> rfl

theorem exactRow_ne_noOperation : ∀ r ∈ exactRows, ∀ n : BitVec 2, r.mnemonic ≠ noOperation n := by decide

theorem listedOpcodes_eq_patterns : listedOpcodes = exactRows.map OpcodeRow.pattern := rfl

theorem mnemonic_decode_listed {ir : Byte} (h : ir ∈ listedOpcodes) (a b : Byte) (n : BitVec 2) :
    (decode ir a b).mnemonic ≠ noOperation n := by
  rw [listedOpcodes_eq_patterns, List.mem_map] at h
  obtain ⟨r, hr, rfl⟩ := h
  rw [mnemonic_decode_exactRow hr]
  exact exactRow_ne_noOperation r hr n

/-- The decoder gives a no-operation exactly for the unlisted opcodes of its length class. -/
theorem mnemonic_decode_eq_noOperation (ir a b : Byte) (n : BitVec 2) :
    (decode ir a b).mnemonic = noOperation n ↔ ir ∉ listedOpcodes ∧ Opcode.countField ir = n := by
  by_cases h : ir ∈ listedOpcodes
  · simp [h, mnemonic_decode_listed h]
  · simp [h, decode_unlisted h, mnemonic_decodeUnlisted, noOperation_inj]

/-- A cycle that fetches an unlisted opcode only advances, by the bytes its count field declares. -/
theorem step_unlisted {s : State} (hs : Executes s) (h : opcodeAtPc s ∉ listedOpcodes) :
    step s = .next (s.setPc (s.pc + BitVec.ofNat 16 ((Opcode.countField (opcodeAtPc s)).toNat + 1))) := by
  rw [step_executes hs, decode_unlisted h, exec_decodeUnlisted, finish, State.advance, advanceAmount_eq,
    countField_toNat]

/-! ## NOP2 and NOP3 -/

theorem isNop2Opcode_iff (ir : Byte) : IsNop2Opcode ir ↔ ir ∉ listedOpcodes ∧ Opcode.countField ir = 0b01#2 := by
  revert ir
  decide

theorem isNop3Opcode_iff (ir : Byte) : IsNop3Opcode ir ↔ ir ∉ listedOpcodes ∧ Opcode.countField ir = 0b10#2 := by
  revert ir
  decide

/-- Settles O26: NOP2 is the default arm at count field 01, and a cycle there advances by 2. -/
theorem nop2SkipsItsOperandByte : Obligations.Nop2SkipsItsOperandByte := by
  refine ⟨fun ir a b => ?_, by decide, fun s hs hop => ?_⟩
  · rw [isNop2Opcode_iff]
    exact mnemonic_decode_eq_noOperation ir a b 0b01#2
  · obtain ⟨hunlisted, hcount⟩ := (isNop2Opcode_iff _).mp hop
    rw [step_unlisted hs hunlisted, hcount]
    rfl

/-- Settles O27: NOP3 is the default arm at count field 10, and a cycle there advances by 3. -/
theorem nop3SkipsBothOperandBytes : Obligations.Nop3SkipsBothOperandBytes := by
  refine ⟨fun ir a b => ?_, by decide, fun s hs hop => ?_⟩
  · rw [isNop3Opcode_iff]
    exact mnemonic_decode_eq_noOperation ir a b 0b10#2
  · obtain ⟨hunlisted, hcount⟩ := (isNop3Opcode_iff _).mp hop
    rw [step_unlisted hs hunlisted, hcount]
    rfl

end Sys2Proof.Machine

/-! SUPPORT. What a loaded image leaves in memory and keeps of the state (70_reset_and_hazards.md R132). -/

namespace Sys2Proof.Machine

variable {image : List Byte} {s u : State}

theorem loadImage_fits (hfits : image.length ≤ Config.memSize) :
    ∃ u : State, loadImage image s = .ok u := by
  rw [loadImage, if_pos hfits]
  exact ⟨_, rfl⟩

/-- The cells below the image's length hold the image. -/
theorem loadByte_loadImage_inside (hl : loadImage image s = .ok u) (hm : s.mem.wf = true) {k : Nat}
    (hk : k < image.length) : u.loadByte k = some image[k] := by
  obtain ⟨hfits, rfl⟩ := loadImage_ok hl
  have hin : k < Config.memSize := Nat.lt_of_lt_of_le hk hfits
  have hcell : (s.mem.putBytes 0 image).byteAt k = image[k] := by
    simpa using byteAt_putBytes_inside (a := 0) image hm hk (by omega)
  rw [State.loadByte, if_pos hin, hcell]

/-- From the image's length on, the load changes no cell. -/
theorem loadByte_loadImage_outside (hl : loadImage image s = .ok u) {k : Nat} (hk : image.length ≤ k) :
    u.loadByte k = s.loadByte k := by
  obtain ⟨-, rfl⟩ := loadImage_ok hl
  have hcell : (s.mem.putBytes 0 image).byteAt k = s.mem.byteAt k := byteAt_putBytes_outside image (by omega)
  simp only [State.loadByte, hcell]

theorem loadImage_keeps_reg (hl : loadImage image s = .ok u) (j : Fin Config.numRegs) : u.reg j = s.reg j := by
  obtain ⟨-, rfl⟩ := loadImage_ok hl
  rfl

theorem loadImage_keeps_rest (hl : loadImage image s = .ok u) : u.pc = s.pc ∧ RestKept s u := by
  obtain ⟨-, rfl⟩ := loadImage_ok hl
  exact ⟨rfl, rfl, rfl, rfl⟩

theorem loadByte_reset {a : Nat} (ha : a < Config.memSize) : State.reset.loadByte a = some 0#8 :=
  if_pos ha

/-- Settles O2: the image stands in its own cells, and everything else is as at reset. -/
theorem imageLoadFillsMemoryFromZero : Obligations.ImageLoadFillsMemoryFromZero := by
  intro image hfits
  obtain ⟨s, hl⟩ : ∃ s : State, loadImage image State.reset = .ok s := loadImage_fits hfits
  obtain ⟨hpc, hfl, hout, hrun⟩ := loadImage_keeps_rest hl
  refine ⟨s, hl, fun k hk => ?_, fun k hk hlt => ?_, loadImage_keeps_reg hl, hpc, hfl, hrun, hout⟩
  · exact loadByte_loadImage_inside hl reset_mem_wf hk
  · exact (loadByte_loadImage_outside hl hk).trans (loadByte_reset hlt)

end Sys2Proof.Machine

/-! SUPPORT. The decoder and the encoder are inverse to each other (30_encoding.md sections 1 to 3), each opcode value
is in one row of the opcode map (R54), and a cycle runs the instruction whose bytes lie at the program counter. -/

namespace Sys2Proof.Machine

/-! ## Well-formed no-operations -/

theorem wellFormed_nop1 (id : BitVec 6) :
    (Instr.nop1 id).wellFormed = true ↔ Opcode.fromFields 0b00#2 id ∉ listedOpcodes := by
  revert id
  decide

theorem wellFormed_nop2 (id : BitVec 6) (a : Byte) :
    (Instr.nop2 id a).wellFormed = true ↔ Opcode.fromFields 0b01#2 id ∉ listedOpcodes := by
  simp only [Instr.wellFormed]
  revert id
  decide

theorem wellFormed_nop3 (id : BitVec 6) (a b : Byte) :
    (Instr.nop3 id a b).wellFormed = true ↔ Opcode.fromFields 0b10#2 id ∉ listedOpcodes := by
  simp only [Instr.wellFormed]
  revert id
  decide

/-- No listed opcode has top bits `11` (R106). -/
theorem fromFields_three_unlisted (id : BitVec 6) : Opcode.fromFields 0b11#2 id ∉ listedOpcodes := by
  revert id
  decide

/-! ## Decoding an encoding, and encoding what was decoded -/

/-- The three fetched bytes are an encoding of the well-formed instruction `i`, as far as they go. -/
def Encodes (i : Instr) (ir a b : Byte) : Prop := i.wellFormed = true ∧ (encode i).take 3 <+: [ir, a, b]

/-- The decoder finds the instruction that the fetched bytes encode: for a listed one by its own arm, for a
no-operation by the default arm and the two fields of the opcode. -/
theorem decode_of_encodes {i : Instr} {ir a b : Byte} (h : Encodes i ir a b) : decode ir a b = i := by
  obtain ⟨hwf, hbytes⟩ := h
  cases i with
  | nop1 id =>
    obtain rfl : Opcode.fromFields 0b00#2 id = ir := by
      simpa [encode, Instr.opcode, Instr.operandBytes] using hbytes
    rw [decode_unlisted ((wellFormed_nop1 id).mp hwf), decodeUnlisted]
    simp
  | nop2 id c =>
    obtain ⟨rfl, rfl⟩ : Opcode.fromFields 0b01#2 id = ir ∧ c = a := by
      simpa [encode, Instr.opcode, Instr.operandBytes] using hbytes
    rw [decode_unlisted ((wellFormed_nop2 id c).mp hwf), decodeUnlisted]
    simp
  | nop3 id c d =>
    obtain ⟨rfl, rfl, rfl⟩ : Opcode.fromFields 0b10#2 id = ir ∧ c = a ∧ d = b := by
      simpa [encode, Instr.opcode, Instr.operandBytes] using hbytes
    rw [decode_unlisted ((wellFormed_nop3 id c d).mp hwf), decodeUnlisted]
    simp
  | nop4 id c d =>
    obtain ⟨rfl, rfl, rfl⟩ : Opcode.fromFields 0b11#2 id = ir ∧ c = a ∧ d = b := by
      simpa [encode, Instr.opcode, Instr.operandBytes] using hbytes
    rw [decode_unlisted (fromFields_three_unlisted id), decodeUnlisted]
    simp
  | _ =>
    simp only [encode, Instr.opcode, Instr.operandBytes, List.take_succ_cons, List.take_nil, List.cons_prefix_cons,
      List.nil_prefix, and_true] at hbytes
    simp [← hbytes]

theorem decodeUnlisted_encodes {ir : Byte} (h : ir ∉ listedOpcodes) (a b : Byte) :
    Encodes (decodeUnlisted ir a b) ir a b := by
  have heta : Opcode.fromFields (Opcode.countField ir) (Opcode.idField ir) = ir := fromFields_eta ir
  unfold decodeUnlisted
  split_ifs with h0 h1 h2
  · rw [h0] at heta
    exact ⟨(wellFormed_nop1 _).mpr (by rwa [heta]), by simp [encode, Instr.opcode, Instr.operandBytes, heta]⟩
  · rw [h1] at heta
    exact ⟨(wellFormed_nop2 _ a).mpr (by rwa [heta]), by simp [encode, Instr.opcode, Instr.operandBytes, heta]⟩
  · rw [h2] at heta
    exact ⟨(wellFormed_nop3 _ a b).mpr (by rwa [heta]), by simp [encode, Instr.opcode, Instr.operandBytes, heta]⟩
  · have h3 : Opcode.countField ir = 0b11#2 := by bv_omega
    rw [h3] at heta
    exact ⟨rfl, by simp [encode, Instr.opcode, Instr.operandBytes, heta]⟩

theorem decode_listed_encodes {ir : Byte} (h : ir ∈ listedOpcodes) (a b : Byte) :
    Encodes (decode ir a b) ir a b := by
  simp only [listedOpcodes, List.mem_cons, List.not_mem_nil, or_false] at h
  obtain rfl | rfl | rfl | rfl | rfl | rfl | rfl | rfl | rfl | rfl | rfl | rfl := h <;>
    exact ⟨rfl, by simp [encode, Instr.opcode, Instr.operandBytes]⟩

theorem decode_encodes (ir a b : Byte) : Encodes (decode ir a b) ir a b := by
  by_cases h : ir ∈ listedOpcodes
  · exact decode_listed_encodes h a b
  · rw [decode_unlisted h]
    exact decodeUnlisted_encodes h a b

@[simp] theorem opcode_decode (ir a b : Byte) : (decode ir a b).opcode = ir :=
  (List.cons_prefix_cons.mp (decode_encodes ir a b).2).1

/-- The encoding has as many bytes as its opcode's top two bits declare (R50). -/
theorem length_encode (i : Instr) : (encode i).length = i.opcode.toNat / 64 + 1 := by
  have h : Laws.EncodedLength.Statement i := by
    cases i with
    | hlt => exact Laws.EncodedLength.hlt
    | ldi a b => exact Laws.EncodedLength.ldi a b
    | prn a => exact Laws.EncodedLength.prn a
    | mul a b => exact Laws.EncodedLength.mul a b
    | add a b => exact Laws.EncodedLength.add a b
    | push a => exact Laws.EncodedLength.push a
    | pop a => exact Laws.EncodedLength.pop a
    | call a => exact Laws.EncodedLength.call a
    | ret => exact Laws.EncodedLength.ret
    | rsv54 a => exact Laws.EncodedLength.rsv54 a
    | rsv55 a => exact Laws.EncodedLength.rsv55 a
    | rsv56 a => exact Laws.EncodedLength.rsv56 a
    | nop1 id => exact Laws.EncodedLength.nop1 id
    | nop2 id a => exact Laws.EncodedLength.nop2 id a
    | nop3 id a b => exact Laws.EncodedLength.nop3 id a b
    | nop4 id a b => exact Laws.EncodedLength.nop4 id a b
  rw [h.1, countField_toNat]

/-- Settles O6: the first three of the given bytes encode the instruction, so the decoder finds it. -/
theorem decodeOfEncodeIsTheInstruction : Obligations.DecodeOfEncodeIsTheInstruction := by
  intro i hwf rest hlen
  have hbytes : (encode i).take 3 <+: (encode i ++ rest).take 3 := (List.prefix_append _ rest).take 3
  match hb : encode i ++ rest with
  | [] | [_] | [_, _] => simp [hb] at hlen
  | ir :: a :: b :: tail =>
    rw [hb] at hbytes
    rw [decodeBytes_cons, decode_of_encodes ⟨hwf, hbytes⟩]

/-- Settles O7: the converse of O6, with the length that the opcode declares. -/
theorem encodeOfDecodeIsTheFetchedBytes : Obligations.EncodeOfDecodeIsTheFetchedBytes := by
  intro ir a b
  obtain ⟨hwf, hbytes⟩ := decode_encodes ir a b
  exact ⟨hwf, by rw [length_encode, opcode_decode], hbytes⟩

/-- Settles O9: seven words by their own arms of the decoder, the NOP3 as a word that encodes it. -/
theorem wordsOfTheOpcodeMapDecode : Obligations.WordsOfTheOpcodeMapDecode :=
  ⟨decode_hlt _ _, decode_ldi _ _, decode_prn _ _, decode_mul _ _, decode_pop _ _, decode_ret _ _, decode_rsv55 _ _,
    decode_of_encodes ⟨rfl, by decide⟩⟩

/-! ## The rows of the opcode map -/

theorem exactRow_selects : ∀ r ∈ exactRows, ∀ ir : Byte, r.selects ir = true → ir = r.pattern := by decide

theorem fallbackRow_selects : ∀ r ∈ fallbackRows, ∀ ir : Byte, r.selects ir = true →
    ir ∉ listedOpcodes ∧ r.mnemonic = noOperation (Opcode.countField ir) := by decide

theorem one_row_selects : ∀ ir : Byte, (opcodeTable.filter fun r => r.selects ir).length = 1 := by decide

/-- The decoder gives an instruction of the row that selects the opcode. -/
theorem mnemonic_decode_of_selects {r : OpcodeRow} (hr : r ∈ opcodeTable) {ir : Byte} (hs : r.selects ir = true)
    (a b : Byte) : (decode ir a b).mnemonic = r.mnemonic := by
  rcases List.mem_append.mp hr with hexact | hfallback
  · rw [exactRow_selects r hexact ir hs, mnemonic_decode_exactRow hexact]
  · obtain ⟨hunlisted, hrow⟩ := fallbackRow_selects r hfallback ir hs
    rw [hrow, mnemonic_decode_eq_noOperation]
    exact ⟨hunlisted, rfl⟩

/-- Settles O8: one row each by the table, the decoder follows the row, and the default arm only advances. -/
theorem decoderIsTotalWithOneRowPerOpcode : Obligations.DecoderIsTotalWithOneRowPerOpcode := by
  refine ⟨one_row_selects, fun ir a b r hr hs => mnemonic_decode_of_selects hr hs a b, fun ir a b s h => ?_⟩
  rw [decode_unlisted h, exec_decodeUnlisted, finish, State.advance, advanceAmount_eq]

/-! ## The instruction at the program counter -/

/-- The instruction the next cycle decodes. -/
def fetchedInstr (s : State) : Instr :=
  decode (opcodeAtPc s) (operandAtPc s) (s.mem.byteAt (s.pc.toNat + 2))

@[simp] theorem opcode_fetchedInstr (s : State) : (fetchedInstr s).opcode = opcodeAtPc s := opcode_decode _ _ _

theorem step_fetchedInstr {s : State} (h : Executes s) : step s = exec (fetchedInstr s) s := step_executes h

theorem operandBytes_fetchedInstr (s : State) :
    (fetchedInstr s).operandBytes.take 2 <+: [operandAtPc s, s.mem.byteAt (s.pc.toNat + 2)] :=
  (List.cons_prefix_cons.mp (decode_encodes _ _ _).2).2

/-- The two operand bytes of the decoded instruction, where it has them, are those after the opcode. -/
theorem operand_fetchedInstr {s : State} {k : Nat} (hk : k < 2) {v : Byte}
    (h : (fetchedInstr s).operandBytes[k]? = some v) :
    [operandAtPc s, s.mem.byteAt (s.pc.toNat + 2)][k]? = some v := by
  have htake : ((fetchedInstr s).operandBytes.take 2)[k]? = some v := by rw [List.getElem?_take, if_pos hk, h]
  obtain ⟨hlt, rfl⟩ := List.getElem?_eq_some_iff.mp htake
  exact List.prefix_iff_getElem?.mp (operandBytes_fetchedInstr s) k hlt

/-- A byte that is read at `a` is the cell's. -/
theorem byteAt_of_loadByte {s : State} {a : Nat} {v : Byte} (h : s.loadByte a = some v) : s.mem.byteAt a = v := by
  unfold State.loadByte at h
  split at h
  · exact Option.some.inj h
  · cases h

/-- The bytes at the program counter are the first of the three that are fetched. -/
theorem bytesAtPc_fetched {s : State} {bs : List Byte} (h : BytesAtPc s bs) (hlen : bs.length ≤ 3) :
    bs <+: [opcodeAtPc s, operandAtPc s, s.mem.byteAt (s.pc.toNat + 2)] := by
  rw [List.prefix_iff_getElem]
  refine ⟨hlen, fun k hk => ?_⟩
  have hbyte : s.mem.byteAt (s.pc.toNat + k) = bs[k] := byteAt_of_loadByte (h k hk)
  have hk3 : k < 3 := Nat.lt_of_lt_of_le hk hlen
  interval_cases k <;> exact hbyte.symm

/-- The instruction whose bytes lie at the program counter is the one that is decoded. -/
theorem fetchedInstr_of_bytes {i : Instr} {s : State} (hwf : i.wellFormed = true)
    (h : BytesAtPc s ((encode i).take 3)) : fetchedInstr s = i :=
  decode_of_encodes ⟨hwf, bytesAtPc_fetched h (List.length_take_le 3 _)⟩

/-- Settles O10: a cycle is the meaning of what is decoded, and that is the instruction at the program counter. -/
theorem stepRunsTheDecodedInstruction : Obligations.StepRunsTheDecodedInstruction := by
  intro i s hwf hs hbytes
  rw [step_fetchedInstr hs, fetchedInstr_of_bytes hwf hbytes]

end Sys2Proof.Machine

/-! SUPPORT. The memory primitives, the push that PUSH and CALL share, and each instruction's outcome with its frame
(40_system_hlt.md to 45_reserved_unlisted.md, 60_exceptions.md section 1). -/

namespace Sys2Proof.Machine

/-! ## The memory primitives -/

theorem memWrite_inside {a : Nat} (ha : a < Config.memSize) (v : Byte) (s : State) (rest : State → Result) :
    memWrite a v s rest = rest (s.setCell a v) :=
  if_pos ha

theorem memWrite_outside {a : Nat} (ha : Config.memSize ≤ a) (v : Byte) (s : State) (rest : State → Result) :
    memWrite a v s rest = raise (.memRangeFault a) s :=
  if_neg (Nat.not_lt.mpr ha)

/-- Settles O12: the read after the write is at the written cell or at another one. -/
theorem memoryReadsTheLatestWrite : Obligations.MemoryReadsTheLatestWrite := by
  intro a c v s restR restW hm
  refine ⟨fun ha hc => ?_, fun ha => ⟨memWrite_outside ha v s restW, memRead_outside ha s restR⟩⟩
  rw [memWrite_inside ha, memRead_inside hc, memRead_inside hc, setCell_mem]
  by_cases hca : c = a
  · rw [if_pos hca, hca, byteAt_put_same v hm]
  · rw [if_neg hca, byteAt_put_other v s.mem hca]

/-! ## Arithmetic of the operands -/

theorem mulBytes_toNat (p q : Byte) : (mulBytes p q).toNat = p.toNat * q.toNat % 256 := BitVec.toNat_ofNat _ 8

theorem addBytes_toNat (p q : Byte) : (addBytes p q).toNat = (p.toNat + q.toNat) % 256 := BitVec.toNat_ofNat _ 8

theorem spDecrement_toNat (v : Byte) : (spDecrement v).toNat = (v.toNat + 255) % 256 := by
  simp [spDecrement, BitVec.toNat_sub, Nat.add_comm]

/-- Below `0xFF` the increment of the stack pointer does not wrap. -/
theorem succ_toNat {v : Byte} (h : v ≠ 0xFF#8) : (v + 1#8).toNat = v.toNat + 1 := by
  bv_omega

@[simp] theorem zext16_toNat (v : Byte) : (zext16 v).toNat = v.toNat := by
  simp only [zext16, BitVec.toNat_setWidth]
  omega

theorem returnByte_eq (pc : Word) : returnByte pc = BitVec.ofNat 8 (pc.toNat + 1) := by
  apply BitVec.eq_of_toNat_eq
  simp only [returnByte, BitVec.toNat_setWidth, BitVec.toNat_add, BitVec.toNat_ofNat]
  omega

/-! ## The push of PUSH and CALL -/

/-- The state after `v` was stored below the stack pointer and the stack pointer moved there. -/
def State.pushed (s : State) (v : Byte) : State :=
  (s.setCell (spDecrement s.sp).toNat v).setSp (spDecrement s.sp)

section
variable (s : State) (v : Byte)

@[simp] theorem pushed_mem : (s.pushed v).mem = s.mem.put (spDecrement s.sp).toNat v := rfl
@[simp] theorem pushed_pc : (s.pushed v).pc = s.pc := rfl
@[simp] theorem pushed_fl : (s.pushed v).fl = s.fl := rfl
@[simp] theorem pushed_run : (s.pushed v).run = s.run := rfl
@[simp] theorem pushed_out : (s.pushed v).out = s.out := rfl
@[simp] theorem pushed_sp : (s.pushed v).sp = spDecrement s.sp := sp_setSp _ _

theorem regsKeptExceptSp_pushed : RegsKeptExceptSp s (s.pushed v) := fun _ hj => reg_setSp_other _ _ hj

theorem memKeptExcept_pushed : MemKeptExcept (spDecrement s.sp).toNat s (s.pushed v) :=
  fun _ hc => loadByte_setCell_other s v hc

end

theorem loadByte_pushed {s : State} (hm : s.mem.wf = true) (v : Byte) :
    (s.pushed v).loadByte (spDecrement s.sp).toNat = some v :=
  loadByte_setCell_same v hm (spDecrement s.sp).isLt

/-- After a push register 7 is the old one minus 1 modulo 256. -/
theorem pushed_reg7_toNat (s : State) (v : Byte) : ((s.pushed v).reg 7).toNat = ((s.reg 7).toNat + 255) % 256 :=
  (congrArg BitVec.toNat (pushed_sp s v)).trans (spDecrement_toNat s.sp)

/-! ## The outcomes by operand

One equation per instruction and range of its operands; the proofs below and later ones start from these. -/

section
variable {a b : Byte} (s : State)

theorem exec_ldi (ha : a.toNat < 8) (b : Byte) :
    exec (.ldi a b) s = .next ((s.setReg ⟨a.toNat, ha⟩ b).advance Opcode.ldi) :=
  writeReg_named ha b s _

theorem exec_prn (ha : a.toNat < 8) :
    exec (.prn a) s = .next ((s.emit (s.reg ⟨a.toNat, ha⟩)).advance Opcode.prn) := by
  rw [exec, execPrn, readReg_named ha, finish]

theorem exec_mul (ha : a.toNat < 8) (hb : b.toNat < 8) :
    exec (.mul a b) s = .next
      ((s.setReg ⟨a.toNat, ha⟩ (mulBytes (s.reg ⟨a.toNat, ha⟩) (s.reg ⟨b.toNat, hb⟩))).advance Opcode.mul) :=
  regRegOp_named ha hb s _

theorem exec_add (ha : a.toNat < 8) (hb : b.toNat < 8) :
    exec (.add a b) s = .next
      ((s.setReg ⟨a.toNat, ha⟩ (addBytes (s.reg ⟨a.toNat, ha⟩) (s.reg ⟨b.toNat, hb⟩))).advance Opcode.add) :=
  regRegOp_named ha hb s _

theorem exec_push (ha : a.toNat < 8) :
    exec (.push a) s = .next ((s.pushed (s.reg ⟨a.toNat, ha⟩)).advance Opcode.push) := by
  rw [exec, execPush, readReg_named ha, memWrite_byte]
  rfl

theorem exec_pop (ha : a.toNat < 8) (hsp : s.sp ≠ Config.spMax) :
    exec (.pop a) s = .next
      (((s.setReg ⟨a.toNat, ha⟩ (s.mem.byteAt s.sp.toNat)).setSp (s.sp + 1#8)).advance Opcode.pop) := by
  rw [exec, execPop, memRead_byte, writeReg_named ha, writeSpIncremented_fits hsp, finish]

theorem exec_pop_overflow (ha : a.toNat < 8) (hsp : s.sp = Config.spMax) :
    exec (.pop a) s = .next ((s.setReg ⟨a.toNat, ha⟩ (s.mem.byteAt Config.spMax.toNat)).setRun
      (.faulted (.spIncrementOverflow Config.spMax))) := by
  rw [exec, execPop, hsp, memRead_byte, writeReg_named ha, writeSpIncremented_overflow, raise]

theorem exec_call (ha : a.toNat < 8) :
    exec (.call a) s = .next ((s.pushed (returnByte s.pc)).setPc
      (zext16 ((s.pushed (returnByte s.pc)).reg ⟨a.toNat, ha⟩))) := by
  rw [exec, execCall, memWrite_byte, readReg_named ha]
  rfl

theorem exec_call_fault (ha : 8 ≤ a.toNat) :
    exec (.call a) s = .next ((s.pushed (returnByte s.pc)).setRun (.faulted (.regIndexFault a))) := by
  rw [exec, execCall, memWrite_byte, readReg_unnamed ha]
  rfl

theorem exec_ret (hsp : s.sp ≠ Config.spMax) :
    exec .ret s = .next
      (((s.setPc (zext16 (s.mem.byteAt s.sp.toNat))).setSp (s.sp + 1#8)).advance Opcode.ret) := by
  rw [exec, execRet, memRead_byte, writeSpIncremented_fits hsp, finish]

theorem exec_ret_overflow (hsp : s.sp = Config.spMax) :
    exec .ret s = .next ((s.setPc (zext16 (s.mem.byteAt Config.spMax.toNat))).setRun
      (.faulted (.spIncrementOverflow Config.spMax))) := by
  rw [exec, execRet, hsp, memRead_byte, writeSpIncremented_overflow, raise]

/-- Operand `a` above 7 faults at the instruction's first statement that names it, before any write. -/
theorem exec_first_index_fault (ha : 8 ≤ a.toNat) {i : Instr}
    (hi : i ∈ [Instr.ldi a b, .prn a, .mul a b, .add a b, .push a, .pop a]) :
    exec i s = .next (s.setRun (.faulted (.regIndexFault a))) := by
  simp only [List.mem_cons, List.not_mem_nil, or_false] at hi
  obtain rfl | rfl | rfl | rfl | rfl | rfl := hi
  · rw [exec, execLdi, writeReg_unnamed ha, raise]
  · rw [exec, execPrn, readReg_unnamed ha, raise]
  · rw [exec, execMul, regRegOp, readReg_unnamed ha, raise]
  · rw [exec, execAdd, regRegOp, readReg_unnamed ha, raise]
  · rw [exec, execPush, readReg_unnamed ha, raise]
  · rw [exec, execPop, memRead_byte, writeReg_unnamed ha, raise]

/-- Operand `b` above 7 faults once operand `a` was read. -/
theorem exec_second_index_fault (ha : a.toNat < 8) (hb : 8 ≤ b.toNat) {i : Instr}
    (hi : i ∈ [Instr.mul a b, .add a b]) : exec i s = .next (s.setRun (.faulted (.regIndexFault b))) := by
  simp only [List.mem_cons, List.not_mem_nil, or_false] at hi
  obtain rfl | rfl := hi
  · rw [exec, execMul, regRegOp, readReg_named ha, readReg_unnamed hb, raise]
  · rw [exec, execAdd, regRegOp, readReg_named ha, readReg_unnamed hb, raise]

end

/-! ## HLT, LDI, PRN, MUL and ADD -/

theorem regsKept_refl (s : State) : RegsKept s s := fun _ => rfl

theorem memKept_refl (s : State) : MemKept s s := fun _ => rfl

/-- Settles O13: by unfolding HLT, which has one case. -/
theorem hltHaltsTheMachine : Obligations.HltHaltsTheMachine := fun s =>
  ⟨(s.halt .hltOpcode).advance Opcode.hlt, rfl, rfl, rfl, regsKept_refl s, memKept_refl s, rfl, rfl⟩

/-- Settles O14: `exec_ldi` and the frame of a register write. -/
theorem ldiWritesTheImmediateToTheRegister : Obligations.LdiWritesTheImmediateToTheRegister := fun _ b ha s =>
  ⟨_, exec_ldi s ha b, reg_setReg_same s _ b, rfl, regsKeptExcept_setReg s ha b, memKept_refl s, rfl, rfl, rfl⟩

/-- Settles O15: `exec_prn`. -/
theorem prnAppendsTheRegisterToTheOutput : Obligations.PrnAppendsTheRegisterToTheOutput := fun _ ha s =>
  ⟨_, exec_prn s ha, rfl, rfl, regsKept_refl s, memKept_refl s, rfl, rfl⟩

/-- Settles O16: `exec_mul`, the product as a number, and the frame of a register write. -/
theorem mulStoresTheProductModulo256 : Obligations.MulStoresTheProductModulo256 := fun a b ha hb s => by
  refine ⟨_, exec_mul s ha hb, ?_, rfl, regsKeptExcept_setReg s ha _, memKept_refl s, rfl, rfl, rfl⟩
  rw [reg_advance, reg_setReg_same, mulBytes_toNat]

/-- Settles O17: `exec_add`, the sum as a number, and the frame of a register write. -/
theorem addStoresTheSumModulo256 : Obligations.AddStoresTheSumModulo256 := fun a b ha hb s => by
  refine ⟨_, exec_add s ha hb, ?_, rfl, regsKeptExcept_setReg s ha _, memKept_refl s, rfl, rfl, rfl⟩
  rw [reg_advance, reg_setReg_same, addBytes_toNat]

/-! ## PUSH, POP, CALL and RET -/

/-- Settles O18: `exec_push` and the frame of a push. -/
theorem pushStoresBelowTheStackPointer : Obligations.PushStoresBelowTheStackPointer := fun _ ha s =>
  ⟨_, exec_push s ha, pushed_reg7_toNat s _, fun hm => loadByte_pushed hm _, rfl, regsKeptExceptSp_pushed s _,
    memKeptExcept_pushed s _, rfl, rfl, rfl⟩

/-- Settles O19: `exec_pop`; the write of register 7 comes last. -/
theorem popLoadsFromTheStackPointer : Obligations.PopLoadsFromTheStackPointer := by
  intro a ha s hsp
  refine ⟨_, exec_pop s ha hsp, ?_, fun ha7 => ?_, rfl, fun j hj hja => ?_, memKept_refl s, rfl, rfl, rfl⟩
  · exact (congrArg BitVec.toNat (sp_setSp _ _)).trans (succ_toNat hsp)
  · have hne : (⟨a.toNat, ha⟩ : Fin Config.numRegs) ≠ Config.spIndex := fun e => ha7 (congrArg Fin.val e)
    rw [reg_advance, reg_setSp_other _ _ hne, reg_setReg_same]
    exact loadByte_byte s s.sp
  · exact (reg_setSp_other _ _ hj).trans (regsKeptExcept_setReg s ha _ j hja)

/-- The register CALL jumps to, read after the push. -/
theorem reg_pushed (s : State) (v : Byte) {a : Byte} (ha : a.toNat < 8) :
    (s.pushed v).reg ⟨a.toNat, ha⟩ = if a.toNat = 7 then spDecrement s.sp else s.reg ⟨a.toNat, ha⟩ := by
  split_ifs with h7
  · have he : (⟨a.toNat, ha⟩ : Fin Config.numRegs) = Config.spIndex := Fin.ext h7
    rw [he]
    exact pushed_sp s v
  · exact regsKeptExceptSp_pushed s v _ fun e => h7 (congrArg Fin.val e)

/-- Settles O20: `exec_call`, the frame of a push, and the return byte as a number. -/
theorem callStoresTheReturnByteAndJumps : Obligations.CallStoresTheReturnByteAndJumps := by
  intro a ha s
  refine ⟨_, exec_call s ha, pushed_reg7_toNat s _, fun hm => ?_, ?_, regsKeptExceptSp_pushed s _,
    memKeptExcept_pushed s _, rfl, rfl, rfl⟩
  · rw [← returnByte_eq]
    exact loadByte_pushed hm _
  · rw [setPc_pc, zext16_toNat, reg_pushed]

/-- `RET` continues one past the loaded byte. -/
theorem zext16_succ_toNat (r : Byte) : (zext16 r + 1#16).toNat = r.toNat + 1 := by
  have h : (zext16 r).toNat = r.toNat := zext16_toNat r
  bv_omega

/-- Settles O21: `exec_ret`. -/
theorem retContinuesAfterTheStoredByte : Obligations.RetContinuesAfterTheStoredByte := by
  intro s hsp
  refine ⟨_, _, loadByte_byte s s.sp, exec_ret s hsp, zext16_succ_toNat _, ?_, fun j hj => ?_, memKept_refl s,
    rfl, rfl, rfl⟩
  · exact (congrArg BitVec.toNat (sp_setSp _ _)).trans (succ_toNat hsp)
  · exact reg_setSp_other (s.setPc _) _ hj

/-! ## The reserved and the unlisted opcodes -/

/-- Settles O22: each of the three hangs. -/
theorem reservedOpcodesChangeNothing : Obligations.ReservedOpcodesChangeNothing := fun _ _ => ⟨rfl, rfl, rfl⟩

/-- Settles O23: each only advances by its own opcode, whose fields give the amount. -/
theorem noOperationsOnlyAdvance : Obligations.NoOperationsOnlyAdvance := by
  intro id a b s
  simp only [exec, execNop1, execNop2, execNop3, execNop4, finish, State.advance, advance_by_fields]
  exact ⟨rfl, rfl, rfl, rfl⟩

/-! ## Faults -/

/-- Settles O29: the first operand, the second, and CALL's after its push. -/
theorem registerOperandAboveSevenFaults : Obligations.RegisterOperandAboveSevenFaults := by
  intro a b s ha
  refine ⟨fun i hi => exec_first_index_fault s ha hi, fun c hc i hi => exec_second_index_fault s hc ha hi,
    _, exec_call_fault s ha, rfl, pushed_reg7_toNat s _, fun hm => ?_, regsKeptExceptSp_pushed s _,
    memKeptExcept_pushed s _, rfl, rfl, rfl⟩
  rw [← returnByte_eq]
  exact loadByte_pushed hm _

/-- Settles O30: the overflow equations of POP and RET. -/
theorem stackPointerIncrementFaultsAtTop : Obligations.StackPointerIncrementFaultsAtTop := by
  intro s hsp
  refine ⟨fun a ha => ⟨_, exec_pop_overflow s ha hsp, rfl, ?_, regsKeptExcept_setReg s ha _, memKept_refl s,
    rfl, rfl, rfl⟩, _, exec_ret_overflow s hsp, rfl, rfl, regsKept_refl s, memKept_refl s, rfl, rfl⟩
  rw [reg_setRun, reg_setReg_same]
  exact loadByte_byte s Config.spMax

end Sys2Proof.Machine

/-! SUPPORT. Everything an instruction can do, as one relation, and what a cycle therefore changes and leaves
unchanged (10_state.md sections 1 to 6, 60_exceptions.md section 1). -/

namespace Sys2Proof.Machine

/-! ## What an instruction can do -/

/-- The operand byte `b` of `i` is a register index, which `i` checks (R53). -/
def NamesRegister (i : Instr) (b : Byte) : Prop :=
  (i.opcode ∈ [0x82#8, 0x47#8, 0xA2#8, 0xA0#8, 0x45#8, 0x46#8, 0x50#8] ∧ i.operandBytes[0]? = some b) ∨
  (i.opcode ∈ [0xA2#8, 0xA0#8] ∧ i.operandBytes[1]? = some b)

/-- The next states of each instruction in the state `s`: one case per outcome of its meaning, faults included.
`exec_effect` ties it to `exec`; every whole-machine rule below is a case analysis of it. -/
inductive Effect (s : State) : Instr → State → Prop
  | hlt : Effect s .hlt ((s.halt .hltOpcode).advance Opcode.hlt)
  | ldi {a : Byte} (ha : a.toNat < 8) (b : Byte) :
      Effect s (.ldi a b) ((s.setReg (named a ha) b).advance Opcode.ldi)
  | prn {a : Byte} (ha : a.toNat < 8) : Effect s (.prn a) ((s.emit (s.reg (named a ha))).advance Opcode.prn)
  | mul {a b : Byte} (ha : a.toNat < 8) (hb : b.toNat < 8) : Effect s (.mul a b)
      ((s.setReg (named a ha) (mulBytes (s.reg (named a ha)) (s.reg (named b hb)))).advance Opcode.mul)
  | add {a b : Byte} (ha : a.toNat < 8) (hb : b.toNat < 8) : Effect s (.add a b)
      ((s.setReg (named a ha) (addBytes (s.reg (named a ha)) (s.reg (named b hb)))).advance Opcode.add)
  | push {a : Byte} (ha : a.toNat < 8) :
      Effect s (.push a) ((s.pushed (s.reg (named a ha))).advance Opcode.push)
  | pop {a : Byte} (ha : a.toNat < 8) (hsp : s.sp ≠ Config.spMax) : Effect s (.pop a)
      (((s.setReg (named a ha) (s.mem.byteAt s.sp.toNat)).setSp (s.sp + 1#8)).advance Opcode.pop)
  | popOverflow {a : Byte} (ha : a.toNat < 8) (hsp : s.sp = Config.spMax) : Effect s (.pop a)
      ((s.setReg (named a ha) (s.mem.byteAt s.sp.toNat)).setRun (.faulted (.spIncrementOverflow s.sp)))
  | call {a : Byte} (ha : a.toNat < 8) : Effect s (.call a)
      ((s.pushed (returnByte s.pc)).setPc (zext16 ((s.pushed (returnByte s.pc)).reg (named a ha))))
  | callFault {a : Byte} (ha : 8 ≤ a.toNat) :
      Effect s (.call a) ((s.pushed (returnByte s.pc)).setRun (.faulted (.regIndexFault a)))
  | ret (hsp : s.sp ≠ Config.spMax) : Effect s .ret
      (((s.setPc (zext16 (s.mem.byteAt s.sp.toNat))).setSp (s.sp + 1#8)).advance Opcode.ret)
  | retOverflow (hsp : s.sp = Config.spMax) : Effect s .ret
      ((s.setPc (zext16 (s.mem.byteAt s.sp.toNat))).setRun (.faulted (.spIncrementOverflow s.sp)))
  | hang {i : Instr} (hi : i.mnemonic ∈ [.rsv54, .rsv55, .rsv56]) : Effect s i s
  | skip {i : Instr} (hi : i.mnemonic ∈ [.nop1, .nop2, .nop3, .nop4]) : Effect s i (s.advance i.opcode)
  | indexFault {i : Instr} {b : Byte} (hi : NamesRegister i b) (hb : 8 ≤ b.toNat) :
      Effect s i (s.setRun (.faulted (.regIndexFault b)))

/-- Operand `a` of the seven instructions that check one. -/
theorem namesRegister_first {i : Instr} {b : Byte}
    (hop : i.opcode ∈ [0x82#8, 0x47#8, 0xA2#8, 0xA0#8, 0x45#8, 0x46#8, 0x50#8])
    (hb : i.operandBytes[0]? = some b) : NamesRegister i b := .inl ⟨hop, hb⟩

/-- What a next state of `exec` can be. -/
theorem exec_effect {i : Instr} {s t : State} (h : exec i s = .next t) : Effect s i t := by
  cases i with
  | hlt =>
    obtain rfl := finish_next.mp h
    exact .hlt
  | ldi a b =>
    rcases execLdi_cases h with ⟨ha, rfl⟩ | ⟨ha, rfl⟩
    · exact .ldi ha b
    · exact .indexFault (namesRegister_first (by simp [Instr.opcode]) rfl) ha
  | prn a =>
    rcases execPrn_cases h with ⟨ha, rfl⟩ | ⟨ha, rfl⟩
    · exact .prn ha
    · exact .indexFault (namesRegister_first (by simp [Instr.opcode]) rfl) ha
  | mul a b =>
    rcases execMul_cases h with ⟨ha, hb, rfl⟩ | ⟨ha, rfl⟩ | ⟨hb, rfl⟩
    · exact .mul ha hb
    · exact .indexFault (namesRegister_first (by simp [Instr.opcode]) rfl) ha
    · exact .indexFault (.inr ⟨by simp [Instr.opcode], rfl⟩) hb
  | add a b =>
    rcases execAdd_cases h with ⟨ha, hb, rfl⟩ | ⟨ha, rfl⟩ | ⟨hb, rfl⟩
    · exact .add ha hb
    · exact .indexFault (namesRegister_first (by simp [Instr.opcode]) rfl) ha
    · exact .indexFault (.inr ⟨by simp [Instr.opcode], rfl⟩) hb
  | push a =>
    rcases execPush_cases h with ⟨ha, rfl⟩ | ⟨ha, rfl⟩
    · exact .push ha
    · exact .indexFault (namesRegister_first (by simp [Instr.opcode]) rfl) ha
  | pop a =>
    rcases execPop_cases h with ⟨ha, hsp, rfl⟩ | ⟨ha, hsp, rfl⟩ | ⟨ha, rfl⟩
    · exact .pop ha hsp
    · exact .popOverflow ha hsp
    · exact .indexFault (namesRegister_first (by simp [Instr.opcode]) rfl) ha
  | call a =>
    rcases execCall_cases h with ⟨ha, rfl⟩ | ⟨ha, rfl⟩
    · exact .call ha
    · exact .callFault ha
  | ret =>
    rcases execRet_cases h with ⟨hsp, rfl⟩ | ⟨hsp, rfl⟩
    · exact .ret hsp
    · exact .retOverflow hsp
  | rsv54 a | rsv55 a | rsv56 a =>
    injection h with h
    exact h ▸ .hang (by simp [Instr.mnemonic])
  | nop1 id | nop2 id a | nop3 id a b | nop4 id a b =>
    obtain rfl := finish_next.mp h
    exact .skip (by simp [Instr.mnemonic])

/-! ## What it does to each part of the state -/

section
variable {i : Instr} {s t : State}

theorem Effect.fl (h : Effect s i t) : t.fl = s.fl := by
  cases h <;> rfl

/-- Only PUSH and CALL store, and only in the cell below the stack pointer. -/
theorem Effect.mem (h : Effect s i t) :
    t.mem = s.mem ∨ (i.opcode ∈ [0x45#8, 0x50#8] ∧ ∃ v, t.mem = s.mem.put (spDecrement s.sp).toNat v) := by
  cases h with
  | push ha => exact .inr ⟨by simp [Instr.opcode], _, rfl⟩
  | call ha => exact .inr ⟨by simp [Instr.opcode], _, rfl⟩
  | callFault ha => exact .inr ⟨by simp [Instr.opcode], _, rfl⟩
  | _ => exact .inl rfl

/-- Only PRN emits, and one value. -/
theorem Effect.out (h : Effect s i t) : t.out = s.out ∨ (i.opcode = 0x47#8 ∧ ∃ v, t.out = s.out ++ [v]) := by
  cases h with
  | prn ha => exact .inr ⟨rfl, _, rfl⟩
  | _ => exact .inl rfl

/-- The program counter is kept, advanced by the instruction's own amount, or loaded with a byte that CALL goes to
or that RET goes on from. -/
theorem Effect.pc (h : Effect s i t) :
    t.pc = s.pc ∨ t.pc = s.pc + advanceAmount i.opcode ∨ ∃ r : Byte, t.pc = zext16 r ∨ t.pc = zext16 r + 1#16 := by
  cases h with
  | call ha => exact .inr (.inr ⟨_, .inl rfl⟩)
  | ret hsp => exact .inr (.inr ⟨_, .inr rfl⟩)
  | retOverflow hsp => exact .inr (.inr ⟨_, .inl rfl⟩)
  | popOverflow | callFault | hang | indexFault => exact .inl rfl
  | _ => exact .inr (.inl rfl)

/-- How an instruction can end the run. -/
theorem Effect.run (h : Effect s i t) :
    t.run = s.run ∨ (t.run = .halted .hltOpcode ∧ i.opcode = 0x01#8) ∨
    (∃ b : Byte, t.run = .faulted (.regIndexFault b) ∧ 8 ≤ b.toNat ∧ NamesRegister i b) ∨
    (t.run = .faulted (.spIncrementOverflow 0xFF#8) ∧ i.opcode ∈ [0x46#8, 0x11#8] ∧ s.sp = Config.spMax) := by
  cases h with
  | hlt => exact .inr (.inl ⟨rfl, rfl⟩)
  | popOverflow ha hsp => exact .inr (.inr (.inr ⟨by rw [hsp]; rfl, by simp [Instr.opcode], hsp⟩))
  | retOverflow hsp => exact .inr (.inr (.inr ⟨by rw [hsp]; rfl, by simp [Instr.opcode], hsp⟩))
  | callFault ha => exact .inr (.inr (.inl ⟨_, rfl, ha, namesRegister_first (by simp [Instr.opcode]) rfl⟩))
  | indexFault hi hb => exact .inr (.inr (.inl ⟨_, rfl, hb, hi⟩))
  | _ => exact .inl rfl

theorem eq_of_reg_setReg_ne {k j : Fin Config.numRegs} {v : Byte} (h : (s.setReg k v).reg j ≠ s.reg j) : j = k :=
  by_contra fun hjk => h (reg_setReg_other s v hjk)

/-- A register that changes is operand `a` of LDI, MUL, ADD or POP, or the stack pointer of a stack instruction. -/
theorem Effect.reg (h : Effect s i t) {j : Fin Config.numRegs} (hj : t.reg j ≠ s.reg j) :
    (i.opcode ∈ [0x82#8, 0xA2#8, 0xA0#8, 0x46#8] ∧ ∃ a : Byte, i.operandBytes[0]? = some a ∧ a.toNat = j.val) ∨
    (i.opcode ∈ [0x45#8, 0x46#8, 0x50#8, 0x11#8] ∧ j = Config.spIndex) := by
  cases h with
  | ldi ha b | mul ha hb | add ha hb | popOverflow ha hsp =>
    obtain rfl := eq_of_reg_setReg_ne hj
    exact .inl ⟨by simp [Instr.opcode], _, rfl, rfl⟩
  | pop ha hsp =>
    by_cases hjsp : j = Config.spIndex
    · exact .inr ⟨by simp [Instr.opcode], hjsp⟩
    · rw [reg_advance, reg_setSp_other _ _ hjsp] at hj
      obtain rfl := eq_of_reg_setReg_ne hj
      exact .inl ⟨by simp [Instr.opcode], _, rfl, rfl⟩
  | push | call | callFault | ret => exact .inr ⟨by simp [Instr.opcode], eq_of_reg_setReg_ne hj⟩
  | _ => exact absurd rfl hj

/-- Settles O28: in each case without a fault, the program counter is that of the effect. -/
theorem genericAdvancementByTheOpcodesTopBits : Obligations.GenericAdvancementByTheOpcodesTopBits := by
  intro i s t h hrun hi
  rw [← advanceAmount_eq]
  cases exec_effect h with
  | popOverflow | callFault | retOverflow | indexFault => exact absurd rfl (hrun _)
  | call ha => exact absurd (by simp [Instr.mnemonic]) hi
  | hang hi' => exact absurd (List.mem_cons_of_mem _ hi') hi
  | ret hsp => rfl
  | skip hi' =>
    have hne : i.mnemonic ≠ .ret := fun e => by simp [e] at hi'
    rw [if_neg hne, advance_pc]
  | _ => rfl

end

/-! ## What a cycle does -/

/-- A cycle executes the fetched instruction, raises in the fetch, or finds the end of memory. -/
theorem step_effect {s t : State} (h : step s = .next t) :
    s.run = .running ∧
    ((Executes s ∧ Effect s (fetchedInstr s) t) ∨
     (lastFetchable < s.pc.toNat ∧ s.pc.toNat < Config.memSize ∧ t = s.setRun (.faulted (.memRangeFault 256))) ∨
     (Config.memSize ≤ s.pc.toNat ∧ t = s.halt .endOfMemory)) := by
  obtain ⟨hrun, ⟨hpc, hexec⟩ | hstop⟩ := step_cases h
  · exact ⟨hrun, .inl ⟨⟨hrun, hpc⟩, exec_effect hexec⟩⟩
  · exact ⟨hrun, .inr hstop⟩

/-- A cycle that executes no instruction changes nothing but the run state. -/
theorem step_effect_or_setRun {s t : State} (h : step s = .next t) :
    (Executes s ∧ Effect s (fetchedInstr s) t) ∨ ∃ r : RunState, t = s.setRun r := by
  obtain ⟨-, heffect | ⟨-, -, ht⟩ | ⟨-, ht⟩⟩ := step_effect h
  · exact .inl heffect
  · exact .inr ⟨_, ht⟩
  · exact .inr ⟨_, ht⟩

theorem step_fl {s t : State} (h : step s = .next t) : t.fl = s.fl := by
  obtain ⟨-, he⟩ | ⟨r, rfl⟩ := step_effect_or_setRun h
  · exact he.fl
  · rfl

/-- A cycle leaves memory alone, or PUSH or CALL stores in the cell below the stack pointer. -/
theorem step_mem {s t : State} (h : step s = .next t) :
    t.mem = s.mem ∨ ((Executes s ∧ opcodeAtPc s ∈ [0x45#8, 0x50#8]) ∧
      ∃ v, t.mem = s.mem.put (spDecrement s.sp).toNat v) := by
  obtain ⟨hs, he⟩ | ⟨r, rfl⟩ := step_effect_or_setRun h
  · rcases he.mem with hmem | ⟨hop, hmem⟩
    · exact .inl hmem
    · exact .inr ⟨⟨hs, opcode_fetchedInstr s ▸ hop⟩, hmem⟩
  · exact .inl rfl

/-! ## The invariant -/

theorem step_keeps_wf {s t : State} (h : step s = .next t) (hm : s.mem.wf = true) : t.mem.wf = true := by
  obtain hmem | ⟨-, v, hmem⟩ := step_mem h
  · rwa [hmem]
  · rw [hmem]
    exact put_keeps_wf v (spDecrement s.sp).isLt hm

/-- From an address that can be fetched from, the program counter goes to 257 at most (R24). -/
theorem Effect.pc_le {i : Instr} {s t : State} (h : Effect s i t) (hpc : s.pc.toNat ≤ 253) : t.pc.toNat ≤ 257 := by
  obtain he | he | ⟨r, he | he⟩ := h.pc <;> rw [he]
  · omega
  · rw [advanceAmount_eq, BitVec.toNat_add, BitVec.toNat_ofNat]
    omega
  · rw [zext16_toNat]
    omega
  · rw [zext16_succ_toNat]
    omega

/-- Settles O35: each part of the invariant is kept by what a cycle can do to it. -/
theorem everyStepKeepsTheInvariant : Obligations.EveryStepKeepsTheInvariant := by
  intro s t hinv h
  refine ⟨step_keeps_wf h hinv.memForm, ?_, (step_fl h).trans hinv.flagsZero⟩
  obtain ⟨hs, he⟩ | ⟨r, rfl⟩ := step_effect_or_setRun h
  · exact he.pc_le hs.2
  · exact hinv.pcBound

/-- Settles O36: the reset memory lists no cell. -/
theorem resetMeetsTheInvariant : Obligations.ResetMeetsTheInvariant := ⟨reset_mem_wf, by decide, rfl⟩

/-! ## Memory, registers and output -/

/-- Settles O41: `step_mem`, read cell by cell. -/
theorem onlyPushAndCallWriteMemory : Obligations.OnlyPushAndCallWriteMemory := by
  intro s t h
  obtain hmem | ⟨hstores, v, hmem⟩ := step_mem h
  · have hkept : MemKept s t := loadByte_of_mem hmem
    exact ⟨fun a _ => hkept a, fun _ => hkept⟩
  · have hmem' : t.mem = (s.setCell (spDecrement s.sp).toNat v).mem := hmem
    exact ⟨fun a ha => (loadByte_of_mem hmem' a).trans (loadByte_setCell_other s v ha),
      fun hno => absurd hstores hno⟩

/-- Settles O42: `Effect.reg`, with the opcode and the operand byte of the fetched instruction. -/
theorem registersChangeOnlyAsTabled : Obligations.RegistersChangeOnlyAsTabled := by
  intro s t j h hj
  obtain ⟨hs, he⟩ | ⟨r, rfl⟩ := step_effect_or_setRun h
  · refine ⟨hs, ?_⟩
    rw [← opcode_fetchedInstr s]
    rcases he.reg hj with ⟨hop, a, hoperand, ha⟩ | hstack
    · obtain rfl : operandAtPc s = a := by simpa using operand_fetchedInstr (by decide) hoperand
      exact .inl ⟨hop, ha⟩
    · exact .inr hstack
  · exact absurd rfl hj

theorem step_out {s t : State} (h : step s = .next t) :
    t.out = s.out ∨ (Executes s ∧ opcodeAtPc s = 0x47#8 ∧ ∃ v, t.out = s.out ++ [v]) := by
  obtain ⟨hs, he⟩ | ⟨r, rfl⟩ := step_effect_or_setRun h
  · rcases he.out with hout | ⟨hop, hout⟩
    · exact .inl hout
    · exact .inr ⟨hs, (opcode_fetchedInstr s).symm.trans hop, hout⟩
  · exact .inl rfl

/-! ## Runs of several cycles -/

/-- A reflexive relation that every cycle extends holds from the first to the last state of a run. -/
theorem After.lift {motive : State → State → Prop} (hrefl : ∀ s, motive s s)
    (hstep : ∀ {s u t}, step s = .next u → motive u t → motive s t) {k : Nat} {s t : State} (h : After k s t) :
    motive s t := by
  induction k generalizing s with
  | zero => exact (after_zero s t).mp h ▸ hrefl s
  | succ k ih =>
    cases hs : step s with
    | next u => exact hstep hs (ih ((after_succ hs k t).mp h))
    | fault f =>
      have hcore : Sys2Proof.core.step s = .fault f := hs
      simp [After, Host.Core.run, hcore] at h
    | refused r =>
      have hcore : Sys2Proof.core.step s = .refused r := hs
      simp [After, Host.Core.run, hcore] at h

/-- Settles O37: no cycle changes FL, so no run does. -/
theorem noCycleWritesTheFlagRegister : Obligations.NoCycleWritesTheFlagRegister := fun _ _ _ h =>
  h.lift (motive := fun s t => t.fl = s.fl) (fun _ => rfl) fun hs hrest => hrest.trans (step_fl hs)

/-- Settles O39: a cycle appends at most one value, so the outputs of a run extend each other. -/
theorem outputIsAppendOnly : Obligations.OutputIsAppendOnly := by
  refine ⟨fun k s t h => ?_, fun s t h => step_out h⟩
  refine h.lift (motive := fun s t => s.out <+: t.out) (fun s => List.prefix_rfl) fun {s u t} hs hrest => ?_
  have hone : s.out <+: u.out := by
    obtain hout | ⟨-, -, v, hout⟩ := step_out hs
    · rw [hout]
    · rw [hout]
      exact List.prefix_append _ _
  exact hone.trans hrest

/-! ## The run state -/

/-- Settles O31: the fetch raises. -/
theorem fetchInTheLastTwoCellsFaults : Obligations.FetchInTheLastTwoCellsFaults := by
  intro s hrun hpc
  have hrange : lastFetchable < s.pc.toNat ∧ s.pc.toNat < Config.memSize := by
    rcases hpc with hpc | hpc <;> rw [hpc] <;> decide
  exact ⟨_, step_prefetch_raises hrun hrange.1 hrange.2, rfl, rfl, regsKept_refl s, memKept_refl s, rfl, rfl⟩

/-- Settles O32: the test for the end of memory comes first. -/
theorem endOfMemoryHaltsSoftly : Obligations.EndOfMemoryHaltsSoftly := fun s hrun hpc =>
  ⟨_, step_past_end hrun hpc, rfl, rfl, regsKept_refl s, memKept_refl s, rfl, rfl⟩

theorem step_running {s : State} (h : s.run = .running) : ∃ t : State, step s = .next t := by
  by_cases hexec : s.pc.toNat ≤ lastFetchable
  · rw [step_fetchedInstr ⟨h, hexec⟩]
    exact exec_next _ s
  · by_cases hend : Config.memSize ≤ s.pc.toNat
    · exact ⟨_, step_past_end h hend⟩
    · exact ⟨_, step_prefetch_raises h (by omega) (by omega)⟩

theorem step_stopped {s : State} (h : Stopped s) : ∃ f : Fault, step s = .fault f := by
  cases hrun : s.run with
  | running => exact absurd hrun h
  | halted r => exact ⟨_, step_halted hrun⟩
  | faulted c => exact ⟨_, step_faulted hrun⟩

/-- Settles O33: a Running machine answers a next state, a stopped one a fault. -/
theorem onlyARunningMachineSteps : Obligations.OnlyARunningMachineSteps := by
  intro s
  by_cases hrun : s.run = .running
  · obtain ⟨t, ht⟩ := step_running hrun
    simp [ht, hrun, Stopped]
  · obtain ⟨f, hf⟩ := step_stopped hrun
    simp [hf, hrun, Stopped]

/-- Settles O34: `Effect.run` for the executing cycle, and the two other ends of a cycle. -/
theorem runLeavesRunningOnlyAsTabled : Obligations.RunLeavesRunningOnlyAsTabled := by
  intro s t h
  obtain ⟨hrunning, ⟨hs, he⟩ | ⟨hlo, hhi, rfl⟩ | ⟨hend, rfl⟩⟩ := step_effect h
  · have hop : (fetchedInstr s).opcode = opcodeAtPc s := opcode_fetchedInstr s
    obtain hrun | ⟨hrun, hhlt⟩ | ⟨b, hrun, hb, hnames⟩ | ⟨hrun, hstack, hsp⟩ := he.run
    · exact .inl (hrun.trans hrunning)
    · exact .inr (.inl ⟨hrun, hs, hop ▸ hhlt⟩)
    · refine .inr (.inr (.inr (.inr (.inl ⟨b, hrun, hb, hs, ?_⟩))))
      obtain ⟨hfirst, hoperand⟩ | ⟨hsecond, hoperand⟩ := hnames
      · have hcell := operand_fetchedInstr (by decide) hoperand
        exact .inl ⟨hop ▸ hfirst, by simpa using hcell.symm⟩
      · have hcell := operand_fetchedInstr (by decide) hoperand
        exact .inr ⟨hop ▸ hsecond, by simpa using hcell.symm⟩
    · exact .inr (.inr (.inr (.inr (.inr ⟨hrun, hs, hop ▸ hstack, hsp⟩))))
  · refine .inr (.inr (.inr (.inl ⟨rfl, ?_⟩)))
    simp only [lastFetchable, Config.memSize] at hlo hhi
    bv_omega
  · exact .inr (.inr (.inl ⟨rfl, hend⟩))

/-- With register operands 0 to 7 and a stack pointer that can be incremented an executing cycle does not fault. -/
theorem step_executes_no_fault {s t : State} (hs : Executes s) (ha : (operandAtPc s).toNat < 8)
    (hb : (s.mem.byteAt (s.pc.toNat + 2)).toNat < 8) (hsp : s.reg 7 ≠ 0xFF#8) (h : step s = .next t)
    (c : FaultCause) : t.run ≠ .faulted c := by
  obtain ⟨hrunning, hpc⟩ := hs
  simp only [lastFetchable, Config.memSize] at hpc
  obtain hrun | ⟨hrun, -⟩ | ⟨hrun, -⟩ | ⟨-, hlast⟩ | ⟨b, -, hb8, -, ⟨-, rfl⟩ | ⟨-, rfl⟩⟩ | ⟨-, -, -, htop⟩ :=
    runLeavesRunningOnlyAsTabled s t h
  · simp [hrun]
  · simp [hrun]
  · simp [hrun]
  · rcases hlast with hlast | hlast <;> simp [hlast] at hpc
  · omega
  · omega
  · exact absurd htop hsp

theorem length_unlisted : (allBytes.filter fun ir => !listedOpcodes.contains ir).length = 244 := by
  have hall : allBytes.length = 256 := by simp [allBytes]
  have hlisted : (allBytes.filter fun ir => listedOpcodes.contains ir).length = 12 := by decide
  have hsplit := List.length_eq_length_filter_add (l := allBytes) fun ir => listedOpcodes.contains ir
  omega

/-- Settles O25: the default arm, its 244 = 256 - 12 values, and the causes of O34 under the premises. -/
theorem unlistedOpcodesOnlyAdvanceAndNoOpcodeTraps : Obligations.UnlistedOpcodesOnlyAdvanceAndNoOpcodeTraps := by
  refine ⟨fun s hs h => ?_, length_unlisted, fun _ _ => rfl, fun s hs ha hb hsp => ?_⟩
  · rw [step_unlisted hs h, countField_toNat]
  · obtain ⟨t, ht⟩ := step_running hs.1
    exact ⟨t, ht, step_executes_no_fault hs ha hb hsp ht⟩

end Sys2Proof.Machine

/-! SUPPORT. No cycle reads the flag register or the output (10_state.md sections 3 and 5): a change of either that
every update of the state passes by goes through a cycle unseen. -/

namespace Sys2Proof.Machine

/-! ## Changes that no update sees -/

/-- The change `f` of the state keeps memory, registers, program counter and run state, and every update an
instruction makes gives the same before and after it. -/
structure Unseen (f : State → State) : Prop where
  mem (s : State) : (f s).mem = s.mem
  x (s : State) : (f s).x = s.x
  pc (s : State) : (f s).pc = s.pc
  run (s : State) : (f s).run = s.run
  setReg (s : State) (i : Fin Config.numRegs) (v : Byte) : (f s).setReg i v = f (s.setReg i v)
  setCell (s : State) (a : Nat) (v : Byte) : (f s).setCell a v = f (s.setCell a v)
  setPc (s : State) (w : Word) : (f s).setPc w = f (s.setPc w)
  setRun (s : State) (r : RunState) : (f s).setRun r = f (s.setRun r)
  emit (s : State) (v : Byte) : (f s).emit v = f (s.emit v)

/-- An answer with the change made to its next state. -/
def mapNext (f : State → State) : Result → Result
  | .next t => .next (f t)
  | .fault c => .fault c
  | .refused r => .refused r

theorem unseen_setFl (v : Byte) : Unseen (·.setFl v) where
  mem _ := rfl
  x _ := rfl
  pc _ := rfl
  run _ := rfl
  setReg _ _ _ := rfl
  setCell _ _ _ := rfl
  setPc _ _ := rfl
  setRun _ _ := rfl
  emit _ _ := rfl

/-- The state with `o` put before its output. -/
def State.outputAfter (o : List Byte) (s : State) : State := { s with out := o ++ s.out }

theorem unseen_outputAfter (o : List Byte) : Unseen (State.outputAfter o) where
  mem _ := rfl
  x _ := rfl
  pc _ := rfl
  run _ := rfl
  setReg _ _ _ := rfl
  setCell _ _ _ := rfl
  setPc _ _ := rfl
  setRun _ _ := rfl
  emit s v := by simp [State.emit, State.outputAfter]

/-! ## Through the operations -/

namespace Unseen

variable {f : State → State} (hf : Unseen f) (s : State)
include hf

theorem reg (i : Fin Config.numRegs) : (f s).reg i = s.reg i := reg_of_x (hf.x s) i

theorem sp : (f s).sp = s.sp := hf.reg s Config.spIndex

theorem raise (c : FaultCause) : Machine.raise c (f s) = mapNext f (Machine.raise c s) :=
  congrArg Host.Outcome.next (hf.setRun s _)

theorem finish (ir : Byte) : Machine.finish ir (f s) = mapNext f (Machine.finish ir s) := by
  simp only [Machine.finish, State.advance, hf.pc, hf.setPc, mapNext]

theorem readReg (b : Byte) {rest rest' : Byte → Result} (hrest : ∀ v, rest' v = mapNext f (rest v)) :
    Machine.readReg b (f s) rest' = mapNext f (Machine.readReg b s rest) := by
  unfold Machine.readReg
  split
  · rw [hf.reg, hrest]
  · exact hf.raise s _

theorem writeReg (b v : Byte) {rest : State → Result} (hrest : ∀ u, rest (f u) = mapNext f (rest u)) :
    Machine.writeReg b v (f s) rest = mapNext f (Machine.writeReg b v s rest) := by
  unfold Machine.writeReg
  split
  · rw [hf.setReg, hrest]
  · exact hf.raise s _

theorem writeSpIncremented (sp : Byte) {rest : State → Result} (hrest : ∀ u, rest (f u) = mapNext f (rest u)) :
    Machine.writeSpIncremented sp (f s) rest = mapNext f (Machine.writeSpIncremented sp s rest) := by
  unfold Machine.writeSpIncremented
  split
  · rw [State.setSp, hf.setReg, hrest, State.setSp]
  · exact hf.raise s _

theorem regRegOp (g : Byte → Byte → Byte) (a b : Byte) {rest : State → Result}
    (hrest : ∀ u, rest (f u) = mapNext f (rest u)) :
    Machine.regRegOp g a b (f s) rest = mapNext f (Machine.regRegOp g a b s rest) :=
  hf.readReg s a fun _ => hf.readReg s b fun _ => hf.writeReg s a _ hrest

/-! ## Through an instruction and a cycle -/

theorem exec (i : Instr) : Machine.exec i (f s) = mapNext f (Machine.exec i s) := by
  cases i with
  | hlt =>
    rw [Machine.exec, execHlt, State.halt, hf.setRun]
    exact hf.finish _ _
  | ldi a b => exact hf.writeReg s a b fun u => hf.finish u _
  | prn a =>
    simp only [Machine.exec, execPrn]
    refine hf.readReg s a fun v => ?_
    rw [hf.emit]
    exact hf.finish _ _
  | mul a b => exact hf.regRegOp s _ a b fun u => hf.finish u _
  | add a b => exact hf.regRegOp s _ a b fun u => hf.finish u _
  | push a =>
    simp only [Machine.exec, execPush, memWrite_byte, hf.sp]
    refine hf.readReg s a fun v => ?_
    rw [hf.setCell, State.setSp, hf.setReg]
    exact hf.finish _ _
  | pop a =>
    simp only [Machine.exec, execPop, memRead_byte, hf.sp, hf.mem]
    exact hf.writeReg s a _ fun u => hf.writeSpIncremented u _ fun w => hf.finish w _
  | call a =>
    simp only [Machine.exec, execCall, memWrite_byte, hf.sp, hf.pc, hf.setCell, State.setSp, hf.setReg]
    refine hf.readReg _ a fun v => ?_
    rw [hf.setPc, mapNext]
  | ret =>
    simp only [Machine.exec, execRet, memRead_byte, hf.sp, hf.mem, hf.setPc]
    exact hf.writeSpIncremented _ _ fun w => hf.finish w _
  | rsv54 a | rsv55 a | rsv56 a => rfl
  | nop1 id | nop2 id a | nop3 id a b | nop4 id a b => exact hf.finish s _

theorem executes : Executes (f s) ↔ Executes s := by
  rw [Executes, Executes, hf.run, hf.pc]

theorem fetchedInstr : Machine.fetchedInstr (f s) = Machine.fetchedInstr s := by
  simp only [Machine.fetchedInstr, opcodeAtPc, operandAtPc, hf.mem, hf.pc]

/-- The next state of a changed state is the changed next state. -/
theorem step {t : State} (h : Machine.step s = .next t) : Machine.step (f s) = .next (f t) := by
  obtain ⟨hrun, ⟨hs, -⟩ | ⟨hlo, hhi, rfl⟩ | ⟨hend, rfl⟩⟩ := step_effect h
  · rw [step_fetchedInstr hs] at h
    rw [step_fetchedInstr ((hf.executes s).mpr hs), hf.fetchedInstr, hf.exec, h, mapNext]
  · rw [← hf.pc] at hlo hhi
    rw [step_prefetch_raises ((hf.run s).trans hrun) hlo hhi, hf.setRun]
  · rw [← hf.pc] at hend
    rw [step_past_end ((hf.run s).trans hrun) hend, State.halt, hf.setRun, State.halt]

end Unseen

/-- Settles O38: a change of FL is unseen. -/
theorem noCycleReadsTheFlagRegister : Obligations.NoCycleReadsTheFlagRegister := fun s _ v h =>
  (unseen_setFl v).step s h

/-- Settles O40: a cycle from the empty output, with the old or another output put before it. -/
theorem noCycleReadsTheOutput : Obligations.NoCycleReadsTheOutput := by
  intro s t o h
  obtain ⟨u, hu⟩ : ∃ u, step { s with out := [] } = .next u := step_running (step_effect h).1
  have hstep : ∀ p : List Byte, step { s with out := p } = .next (u.outputAfter p) := fun p => by
    simpa [State.outputAfter] using (unseen_outputAfter p).step _ hu
  obtain rfl : u.outputAfter s.out = t := by
    have hs : step s = .next (u.outputAfter s.out) := hstep s.out
    exact Host.Outcome.next.inj (hs.symm.trans h)
  exact ⟨u.out, rfl, hstep o⟩

end Sys2Proof.Machine

/-! SUPPORT. The program text (70_reset_and_hazards.md section 2) and the reset state (10_state.md section 8). -/

namespace Sys2Proof.Machine

/-! ## Reset -/

/-- Settles O1: the cells by the law of an unwritten cell, the rest by the reset value itself. -/
theorem resetHoldsTheTabledValues : Obligations.ResetHoldsTheTabledValues :=
  ⟨fun _ ha => loadByte_reset ha, by decide, rfl, rfl, rfl, rfl, rfl⟩

/-! ## The size of the image -/

theorem imageOfLines_fits {lines : List (List Char)} {bytes : List Byte} (h : bytesOfLines lines = .ok bytes)
    (hfits : bytes.length ≤ Config.memSize) : imageOfLines lines = .ok bytes := by
  simp only [imageOfLines, h, if_pos hfits]

theorem imageOfLines_overflow {lines : List (List Char)} {bytes : List Byte} (h : bytesOfLines lines = .ok bytes)
    (hover : Config.memSize < bytes.length) : imageOfLines lines = .error .overflow := by
  simp only [imageOfLines, h, if_neg (Nat.not_le.mpr hover)]

/-- Settles O5: the test for 256 bytes, in the source's image and in the image load. -/
theorem sourceBeyondMemoryIsRefused : Obligations.SourceBeyondMemoryIsRefused := fun _ _ h =>
  ⟨imageOfLines_fits h, fun hover => ⟨imageOfLines_overflow h hover, if_neg (Nat.not_le.mpr hover)⟩⟩

/-! ## Eight-digit lines -/

theorem mem_binaryLine {v : Byte} {d : Char} (h : d ∈ binaryLine v) : d = '1' ∨ d = '0' := by
  obtain ⟨k, -, rfl⟩ := List.mem_map.mp h
  split
  · exact .inl rfl
  · exact .inr rfl

/-- A line with neither a `#` nor white space is read whole. -/
theorem meaningfulPart_eq_self {l : List Char} (hhash : '#' ∉ l) (hspace : ∀ d ∈ l, d.isWhitespace = false) :
    meaningfulPart l = l := by
  have hdrop : ∀ m : List Char, (∀ d ∈ m, d.isWhitespace = false) → m.dropWhile Char.isWhitespace = m := by
    intro m hm
    cases m with
    | nil => rfl
    | cons d ds => rw [List.dropWhile_cons_of_neg (by simp [hm d])]
  rw [meaningfulPart, stripComment_of_no_hash hhash, stripSpace, hdrop l hspace,
    hdrop l.reverse fun d hd => hspace d (List.mem_reverse.mp hd), List.reverse_reverse]

theorem meaningfulPart_binaryLine (v : Byte) : meaningfulPart (binaryLine v) = binaryLine v := by
  refine meaningfulPart_eq_self (fun h => ?_) fun d hd => ?_
  · rcases mem_binaryLine h with h | h <;> exact absurd h (by decide)
  · rcases mem_binaryLine hd with rfl | rfl <;> rfl

theorem byteOfLiteral_binaryLine (v : Byte) : byteOfLiteral (binaryLine v) = .ok v := by
  have hvalue : binaryValue 0 (binaryLine v) = some v.toNat := by
    revert v
    decide
  simp [byteOfLiteral, hvalue, v.isLt]

theorem bytesOfLines_cons_binaryLine (v : Byte) (lines : List (List Char)) (bytes : List Byte)
    (h : bytesOfLines lines = .ok bytes) : bytesOfLines (binaryLine v :: lines) = .ok (v :: bytes) := by
  have hbyte : byteOfLiteral (binaryLine v) = .ok v := byteOfLiteral_binaryLine v
  have hpart : meaningfulPart (binaryLine v) = binaryLine v := meaningfulPart_binaryLine v
  cases hl : binaryLine v with
  | nil => simp [binaryLine] at hl
  | cons c cs =>
    rw [hl] at hbyte hpart
    simp only [bytesOfLines, hpart, hbyte, h]

theorem bytesOfLines_binaryLines (image : List Byte) : bytesOfLines (image.map binaryLine) = .ok image := by
  induction image with
  | nil => rfl
  | cons v image ih => exact bytesOfLines_cons_binaryLine v _ _ ih

/-- Settles O4: every line gives its byte, and the image fits. -/
theorem oneLiteralPerLineLoadsThoseBytes : Obligations.OneLiteralPerLineLoadsThoseBytes := fun image hfits =>
  imageOfLines_fits (bytesOfLines_binaryLines image) hfits

/-! ## Comments and white space -/

/-- Of a line only its meaningful part matters to the loader. -/
theorem imageOfLines_congr {l m : List Char} (h : meaningfulPart l = meaningfulPart m)
    (pre post : List (List Char)) : imageOfLines (pre ++ l :: post) = imageOfLines (pre ++ m :: post) := by
  simp only [imageOfLines, bytesOfLines_congr h]

theorem imageOfLines_skip {l : List Char} (h : meaningfulPart l = []) (pre post : List (List Char)) :
    imageOfLines (pre ++ l :: post) = imageOfLines (pre ++ post) := by
  simp only [imageOfLines, bytesOfLines_skip h]

/-- Settles O3: each change keeps the meaningful part of its line. -/
theorem commentsAndBlankLinesDoNotChangeTheImage : Obligations.CommentsAndBlankLinesDoNotChangeTheImage := by
  intro pre post l c w₁ w₂ v hspace
  have h₁ : Blank w₁ := blank_of_mem fun d hd => hspace d (List.mem_append_left _ hd)
  have h₂ : Blank w₂ := blank_of_mem fun d hd => hspace d (List.mem_append_right _ hd)
  refine ⟨imageOfLines_congr (meaningfulPart_comment l c) pre post,
    imageOfLines_congr (meaningfulPart_surround h₁ h₂ l) pre post,
    imageOfLines_skip (meaningfulPart_blank h₁) pre post, ?_⟩
  have hpart : meaningfulPart (w₁ ++ binaryLine v ++ w₂ ++ '#' :: c) = meaningfulPart (binaryLine v) :=
    (meaningfulPart_comment _ c).trans (meaningfulPart_surround h₁ h₂ _)
  exact (imageOfLines_congr hpart [] []).trans (oneLiteralPerLineLoadsThoseBytes [v] (by simp))

end Sys2Proof.Machine

/-! SUPPORT. The laws of two cycles: a store that is fetched next, push and pop, call and return (20_memory.md
section 11, 43_stack_push_pop.md, 44_subroutine_call_ret.md). -/

namespace Sys2Proof.Machine

/-! ## A cycle of PUSH, and what the next one finds -/

theorem step_push {s : State} {a : Byte} (hs : Executes s) (hbytes : BytesAtPc s [0x45#8, a]) (ha : a.toNat < 8) :
    step s = .next ((s.pushed (s.reg ⟨a.toNat, ha⟩)).advance Opcode.push) := by
  rw [stepRunsTheDecodedInstruction (.push a) s rfl hs hbytes, exec_push s ha]

/-- From an address that can be fetched from, the advance of PUSH does not wrap. -/
theorem pc_after_push {s : State} (hs : Executes s) (v : Byte) :
    ((s.pushed v).advance Opcode.push).pc.toNat = s.pc.toNat + 2 := by
  have hpc : s.pc.toNat ≤ 253 := hs.2
  rw [advance_pc, advance_push, pushed_pc]
  bv_omega

theorem byteAt_pushed_same {s : State} (hm : s.mem.wf = true) (v : Byte) :
    (s.pushed v).mem.byteAt (spDecrement s.sp).toNat = v :=
  byteAt_of_loadByte (loadByte_pushed hm v)

theorem byteAt_pushed_other (s : State) (v : Byte) {a : Nat} (ha : a ≠ (spDecrement s.sp).toNat) :
    (s.pushed v).mem.byteAt a = s.mem.byteAt a :=
  byteAt_put_other v s.mem ha

/-- Settles O43: the byte the PUSH stored is the opcode of the next fetch, the two bytes after it are unchanged. -/
theorem aStoreIsSeenByTheNextFetch : Obligations.AStoreIsSeenByTheNextFetch := by
  intro r hr s hm hs hbytes hnext hsp
  have hpc := pc_after_push hs (s.reg ⟨r.toNat, hr⟩)
  have hop : opcodeAtPc ((s.pushed (s.reg ⟨r.toNat, hr⟩)).advance Opcode.push) = s.reg ⟨r.toNat, hr⟩ := by
    rw [opcodeAtPc, hpc, ← hsp]
    exact byteAt_pushed_same hm _
  have hexec : Executes ((s.pushed (s.reg ⟨r.toNat, hr⟩)).advance Opcode.push) := ⟨hs.1, hpc.trans_le hnext⟩
  refine ⟨_, step_push hs hbytes hr, hpc, hop, ?_⟩
  rw [step_executes hexec, hop, operandAtPc, hpc, advance_mem,
    byteAt_pushed_other s _ (by omega), byteAt_pushed_other s _ (by omega)]

/-! ## Push, then pop -/

theorem BytesAtPc.of_append {s : State} {bs cs : List Byte} (h : BytesAtPc s (bs ++ cs)) : BytesAtPc s bs := by
  intro k hk
  have hbyte := h k (by rw [List.length_append]; omega)
  rwa [List.getElem_append_left hk] at hbyte

/-- The bytes after the first `bs` lie at a program counter that is as much further, in a memory that keeps them. -/
theorem BytesAtPc.after_append {s t : State} {bs cs : List Byte} (h : BytesAtPc s (bs ++ cs))
    (hpc : t.pc.toNat = s.pc.toNat + bs.length)
    (hmem : ∀ k < cs.length, t.loadByte (t.pc.toNat + k) = s.loadByte (t.pc.toNat + k)) : BytesAtPc t cs := by
  intro k hk
  have hbyte := h (bs.length + k) (by rw [List.length_append]; omega)
  rw [hmem k hk, hpc, Nat.add_assoc, hbyte]
  simp

/-- The stack pointer below one that is not 0 can be incremented. -/
theorem spDecrement_ne_spMax {v : Byte} (h : v ≠ 0#8) : spDecrement v ≠ Config.spMax := by
  simp only [spDecrement]
  bv_omega

theorem spDecrement_add_one (v : Byte) : spDecrement v + 1#8 = v := BitVec.sub_add_cancel v 1#8

/-- Settles O44: the PUSH leaves the POP's bytes alone, and the POP reads the pushed byte back. -/
theorem pushThenPopMovesTheValue : Obligations.PushThenPopMovesTheValue := by
  intro r1 r2 h1 h2 s hm hrun hpc hbytes hsp hne2 hne3
  have hs : Executes s := ⟨hrun, by simp only [lastFetchable, Config.memSize]; omega⟩
  obtain ⟨t, ht⟩ : ∃ t, t = (s.pushed (s.reg ⟨r1.toNat, h1⟩)).advance Opcode.push := ⟨_, rfl⟩
  have hpush : step s = .next t := ht ▸ step_push hs (hbytes.of_append (cs := [0x46#8, r2])) h1
  have htpc : t.pc.toNat = s.pc.toNat + 2 := ht ▸ pc_after_push hs _
  have htsp : t.sp = spDecrement s.sp := ht ▸ pushed_sp s _
  have htop : t.mem.byteAt t.sp.toNat = s.reg ⟨r1.toNat, h1⟩ := by
    rw [htsp, ht]
    exact byteAt_pushed_same hm _
  have hbytes' : BytesAtPc t [0x46#8, r2] := by
    refine hbytes.after_append (bs := [0x45#8, r1]) htpc fun k hk => ?_
    have hk2 : k < 2 := hk
    rw [htpc, ht]
    exact memKeptExcept_pushed s _ _ (by omega)
  have h2' : r2.toNat < 8 := by omega
  have hpop := (stepRunsTheDecodedInstruction (.pop r2) t rfl ⟨ht ▸ hrun, htpc.trans_le hpc⟩ hbytes').trans
    (exec_pop t h2' (htsp ▸ spDecrement_ne_spMax hsp))
  refine ⟨_, (after_succ hpush 1 _).mpr ((after_succ hpop 0 _).mpr ((after_zero _ _).mpr rfl)), ?_, ?_, ?_⟩
  · exact (sp_setSp _ _).trans (htsp ▸ spDecrement_add_one s.sp)
  · have hr2 : (⟨r2.toNat, h2'⟩ : Fin Config.numRegs) ≠ Config.spIndex := fun e =>
      absurd (congrArg Fin.val e) (Nat.ne_of_lt h2)
    rw [reg_advance, reg_setSp_other _ _ hr2, reg_setReg_same, htop]
  · rw [advance_pc, advance_pop, setSp_pc, setReg_pc, ht, advance_pc, advance_push, pushed_pc, BitVec.add_assoc]
    rfl

/-! ## Call, then return -/

theorem step_call {s : State} {a : Byte} (hs : Executes s) (hbytes : BytesAtPc s [0x50#8, a]) (ha : a.toNat < 8) :
    step s = .next ((s.pushed (returnByte s.pc)).setPc (zext16 ((s.pushed (returnByte s.pc)).reg ⟨a.toNat, ha⟩))) := by
  rw [stepRunsTheDecodedInstruction (.call a) s rfl hs hbytes, exec_call s ha]

theorem step_ret {s : State} (hs : Executes s) (hop : opcodeAtPc s = Opcode.ret) (hsp : s.sp ≠ Config.spMax) :
    step s = .next (((s.setPc (zext16 (s.mem.byteAt s.sp.toNat))).setSp (s.sp + 1#8)).advance Opcode.ret) := by
  rw [step_executes hs, hop, decode_ret, exec_ret s hsp]

/-- At an address that can be fetched from, the return byte is the address after the opcode. -/
theorem returnByte_toNat {s : State} (hs : Executes s) : (returnByte s.pc).toNat = s.pc.toNat + 1 := by
  have hpc : s.pc.toNat ≤ 253 := hs.2
  rw [returnByte_eq, BitVec.toNat_ofNat]
  omega

/-- Settles O45: the RET reads the CALL's return byte where the CALL left it, and undoes its decrement. -/
theorem returnContinuesAfterTheCall : Obligations.ReturnContinuesAfterTheCall := by
  intro r hr s hm hs hbytes hsp
  have hr8 : r.toNat < 8 := by omega
  refine ⟨_, step_call hs hbytes hr8, ?_, fun u hu hop husp hucell => ?_⟩
  · rw [setPc_pc, zext16_toNat, reg_pushed, if_neg (Nat.ne_of_lt hr)]
  · have husp' : u.sp = spDecrement s.sp := husp.trans (pushed_sp s _)
    have hret : u.mem.byteAt u.sp.toNat = returnByte s.pc := by
      rw [husp']
      refine byteAt_of_loadByte (Eq.trans ?_ (loadByte_pushed hm _))
      exact (pushed_sp s (returnByte s.pc)) ▸ hucell
    refine ⟨_, step_ret hu hop (husp' ▸ spDecrement_ne_spMax hsp), ?_, ?_⟩
    · rw [advance_pc, advance_ret, setSp_pc, setPc_pc, hret, zext16_succ_toNat, returnByte_toNat hs]
    · exact (sp_setSp _ _).trans (husp' ▸ spDecrement_add_one s.sp)

end Sys2Proof.Machine

/-! SUPPORT. The ALU helper, invoked directly (42_alu_mul_add.md section 3, 10_state.md section 3). -/

namespace Sys2Proof.Machine

/-! ## The comparison -/

theorem compareFlags_eq {p q : Byte} (h : p.toNat = q.toNat) : compareFlags p q = 0x01#8 := by
  obtain rfl : p = q := BitVec.eq_of_toNat_eq h
  simp [compareFlags, flagBit]

theorem compareFlags_gt {p q : Byte} (h : q.toNat < p.toNat) : compareFlags p q = 0x02#8 := by
  have hne : p ≠ q := fun e => by simp [e] at h
  simp [compareFlags, flagBit, h, Nat.lt_asymm h, hne]

theorem compareFlags_lt {p q : Byte} (h : p.toNat < q.toNat) : compareFlags p q = 0x04#8 := by
  have hne : p ≠ q := fun e => by simp [e] at h
  simp [compareFlags, flagBit, h, Nat.lt_asymm h, hne]

/-- Settles O46: CMP has one case, and the flags are those of the comparison. -/
theorem aluCompareSetsOneFlagFromTheArguments : Obligations.AluCompareSetsOneFlagFromTheArguments := fun _ _ s hrun =>
  ⟨_, aluInvoke_running hrun _ _ _, compareFlags_eq, compareFlags_gt, compareFlags_lt, regsKept_refl s, memKept_refl s,
    rfl, rfl, rfl⟩

/-! ## ADD -/

/-- On operands that name registers the helper's ADD is the register write of the instruction ADD. -/
theorem aluAdd_named {a b : Byte} (ha : a.toNat < 8) (hb : b.toNat < 8) (s : State) :
    aluAdd a b s = .next (s.setReg ⟨a.toNat, ha⟩ (addBytes (s.reg ⟨a.toNat, ha⟩) (s.reg ⟨b.toNat, hb⟩))) :=
  regRegOp_named ha hb s _

/-- Where an operand names no register, what was to follow the operation does not matter. -/
theorem regRegOp_unnamed {g : Byte → Byte → Byte} {a b : Byte} (h : 8 ≤ a.toNat ∨ 8 ≤ b.toNat) (s : State)
    (rest rest' : State → Result) : regRegOp g a b s rest = regRegOp g a b s rest' := by
  by_cases ha : a.toNat < 8
  · have hb : 8 ≤ b.toNat := by omega
    simp only [regRegOp, readReg_named ha, readReg_unnamed hb]
  · have ha' : 8 ≤ a.toNat := by omega
    simp only [regRegOp, readReg_unnamed ha']

/-- Settles O47: the two share the operation and differ in what follows it. -/
theorem aluAddAgreesWithTheInstruction : Obligations.AluAddAgreesWithTheInstruction := by
  intro a b s hrun
  refine ⟨fun ha hb => ⟨_, (aluInvoke_running hrun _ _ _).trans (aluAdd_named ha hb s), rfl, rfl, exec_add s ha hb⟩,
    fun h => ?_⟩
  exact (aluInvoke_running hrun _ _ _).trans (regRegOp_unnamed h s _ _)

/-! ## Any other operation, and the run state -/

/-- Settles O48: the operation raises and does nothing else. -/
theorem aluUnsupportedOperationFaults : Obligations.AluUnsupportedOperationFaults := fun _ _ _ s hrun =>
  ⟨_, aluInvoke_running hrun _ _ _, rfl, regsKept_refl s, memKept_refl s, rfl, rfl, rfl⟩

/-- An operation of the helper keeps the run state or raises. -/
theorem aluOperation_run {select : AluSelect} {p q : Byte} {s t : State}
    (h : aluOperation select p q s = .next t) : t.run = s.run ∨ ∃ c : FaultCause, t.run = .faulted c := by
  cases select with
  | add =>
    obtain ⟨hp, hq, hwritten⟩ | ⟨-, rfl⟩ | ⟨-, rfl⟩ := regRegOp_cases h
    · injection hwritten with ht
      exact .inl (ht ▸ rfl)
    · exact .inr ⟨_, rfl⟩
    · exact .inr ⟨_, rfl⟩
  | cmp =>
    injection h with ht
    exact .inl (ht ▸ rfl)
  | other n =>
    obtain rfl := raise_next.mp h
    exact .inr ⟨_, rfl⟩

/-- Settles O49: the run-state test stands before the operation, as it stands before a cycle. -/
theorem aluHelperActsOnARunningMachineOnly : Obligations.AluHelperActsOnARunningMachineOnly := by
  intro select p q s
  refine ⟨⟨fun ⟨t, h⟩ => (whenRunning_next.mp h).1, fun hrun => ?_⟩, fun t h => ?_, fun hstopped => ?_⟩
  · rw [aluInvoke_running hrun]
    exact aluOperation_completes select p q s
  · obtain ⟨hrun, hop⟩ := whenRunning_next.mp h
    exact hrun ▸ aluOperation_run hop
  · exact whenRunning_stopped hstopped _ _

end Sys2Proof.Machine
